-- ==== Sys2Proof/Word.lean ====
section
/-! DEFINITION. The engine's word (00 R8: every data word, fingerprint word and register is 32 bits wide) and the byte in which memory is listed. -/

namespace Sys2Proof

/-- One 32-bit word (00 R8, R15). Bit `n` by weight (00 R13) is `getLsbD n`. -/
abbrev Word := BitVec 32

/-- One byte of a listed memory cell (log 4). -/
abbrev Byte := BitVec 8

/-- `WORD_BITS` (00 R8): fixed, not a parameter. -/
def wordBits : Nat := 32

end Sys2Proof
end

