-- ==== Sys2Proof/Config.lean ====
section
/-! DEFINITION. The parameters of one engine (00 R9, R12; 20 R56, R66; 60 R139), the sizes they fix (00 R11), and the free values the spec leaves open (10 R34, 30 R79). -/

namespace Sys2Proof

/-- `BUS_BYTE_ORDER` (20 R56): an OPEN parameter of the platform; no engine rule reads it. DESIGN CHOICE (log 3): the spec
leaves the mapping of a word's bytes to the bus byte lanes wholly open, and the model admits two mappings, straight little and
straight big, no other permutation of the lanes. Unsafe for a claim about the bytes on the lanes, were one made. -/
inductive ByteOrder where
  | little
  | big
deriving DecidableEq, Repr

/-- `UPSET_MODEL` (20 R66, 92 D27): whether the environment may flip a bit of the Protected Block. -/
inductive UpsetModel where
  | none
  | single
deriving DecidableEq, Repr

/-- What the platform's channel does with the optional diagnostic events of REPAIR (60 R139, log 17). -/
inductive EventChannel where
  | dropped
  | recorded
deriving DecidableEq, Repr

/-- The parameters of one engine and its platform. They are configuration (10 R20); State carries them because a step takes
a State alone, and no step changes them (log 1). -/
structure Config where
  /-- `B - 1`: the type admits exactly `1 <= B <= 32` (00 R9). -/
  blocksLessOne : Fin 32
  /-- `ENGINE_BASE` (00 R12, log 2). -/
  engineBase : Nat
  busByteOrder : ByteOrder
  upsetModel : UpsetModel
  events : EventChannel
deriving DecidableEq, Repr

namespace Config

/-- `BLOCK_COUNT` (00 R9). -/
def B (c : Config) : Nat := c.blocksLessOne.val + 1

/-- `ROW_COUNT = 32 * B` (00 R10). -/
def R (c : Config) : Nat := 32 * c.B

/-- `FP_WORDS = 3 * B + 3` (00 R11, 10 R30). -/
def fpWords (c : Config) : Nat := 3 * c.B + 3

/-- The engine of `State.reset`: `B = 2` is the source's own example (00 R9, log 1); base and byte order are chosen (log 2,
log 3); no upsets is the spec's default (92 D27); events are dropped (log 17). -/
def default : Config :=
  { blocksLessOne := 1, engineBase := 0, busByteOrder := .little, upsetModel := .none, events := .dropped }

/-- The value VALID reads as in the `n`-th STATUS read taken while BUSY = 1: "an unspecified value in VALID (a draw)"
(10 R34, 93 item 14). It has no body, so nothing can be proved of it (log 6). -/
opaque validDraw : Nat → Bool

/-- The value a host program's name holds before the program binds it: the notation of 30 R79 gives it none. It has no body,
so nothing can be proved of it (log 14). -/
opaque unboundName : Nat → Word

end Config

end Sys2Proof
end

