-- ==== Sys2Proof/Syntax.lean ====
section
/-! DEFINITION. The engine's commands, one constructor per row of spec/opcode_table.json, and the operations of a host program in the notation of 30 R79 to R84. -/

namespace Sys2Proof

/-- The three commands (30 R68). No command has an operand (30 R69). -/
inductive Instr where
  | compute
  | check
  | repair
deriving DecidableEq, Repr

/-- A name that a host program gives to a value it has read (30 R79, `RD off -> name`). -/
abbrev HostName := Nat

/-- The host's own computation between its bus operations (30 R79): the XOR of read values, and the test of one bit. -/
inductive HostExpr where
  | const (w : Word)
  | name (x : HostName)
  | xor (a b : HostExpr)
  /-- Bit `n` by weight of `e`, as a word that is 0 or 1 (`s[1]` of 30 R83). -/
  | bit (e : HostExpr) (n : Nat)
deriving DecidableEq, Repr

/-- One operation of a host program (30 R79). `read` and `write` are bus accesses of any width, so that an access the engine
faults on can be written too (20 R51); `poll` is `POLL`; `set` and `skipIf` are the host's own computation. -/
inductive HostOp where
  /-- `RD off -> x` with a width in bytes. -/
  | read (off width : Nat) (x : HostName)
  /-- `WR off, e` with a width in bytes. -/
  | write (off width : Nat) (e : HostExpr)
  /-- `POLL`: `RD 0x0004 -> x`, repeated until `x[0] == 0`. -/
  | poll (x : HostName)
  /-- `x <- e`. -/
  | set (x : HostName) (e : HostExpr)
  /-- The host's `if`: leave out the next `n` operations when `e` is not 0 (30 R84). -/
  | skipIf (e : HostExpr) (n : Nat)
deriving DecidableEq, Repr

end Sys2Proof
end

