-- ==== Sys2Proof/Machine/State.lean ====
section
/-! DEFINITION. The machine's state (10 R20), the reasons a step can stop (60 R130, R131), the turns of its agents (00 R17), and the state after reset (10 R41, R42). -/

namespace Sys2Proof.Machine

/-- The engine's storage, DATA, the stored and the fresh fingerprint, as bytes listed by their offset in the window (20 R45),
offsets strictly rising. An unlisted byte has no value: its word is `unwritten` (10 R39, R42; log 5). -/
abbrev Memory := List Host.Cell

/-- The model's faults (60 R130), each with the byte offset it records (60 R142). They are no hardware events (60 R129). All
are safe: the model stops where the spec gives the access no value. -/
inductive Fault where
  /-- Code 1. A host read, or the completion of a command, reads a word not written since reset. Safe. -/
  | unwritten (off : Nat)
  /-- Code 2. A host access other than a STATUS read while STATUS.BUSY = 1. Safe. -/
  | busyHazard (off : Nat)
  /-- Code 3. A host access at a reserved or misaligned offset, of a width other than 4, or in the wrong direction. Safe. -/
  | badAccess (off : Nat)
deriving DecidableEq, Repr

/-- The reason of a refusal: "the refusal reason has one constructor, ReservedCommand" (60 R131). -/
inductive RefusalReason where
  | reservedCommand
deriving DecidableEq, Repr

/-- Why a step has no meaning. All are safe: nothing is claimed of a run that reaches one. -/
inductive Refusal where
  /-- The host interface's constructor for an arm of `exec` without a meaning. This model has no such arm, so no step raises
  it, and it is no refusal of the spec (log 23). Safe. -/
  | notModelled (mnemonic : String)
  /-- Raised by a host write of a reserved command word to CMD (30 R70, 60 R131). Safe. -/
  | reservedCommand
deriving DecidableEq, Repr

/-- Whose step comes next (00 R17, 20 R59; log 9). -/
inductive Turn where
  /-- The host's next operation. -/
  | host
  /-- The engine's completion (30 R76). -/
  | engine
  /-- The platform asserts reset (70 R147). -/
  | reset
  /-- The environment flips bit `bit` of the word at offset `off`, where UPSET_MODEL admits it (20 R66, 92 D27). -/
  | upset (off bit : Nat)
deriving DecidableEq, Repr

/-- One diagnostic event of REPAIR: the row and the MSB-first column of a flipped pair (60 R139). -/
structure DiagEvent where
  row : Nat
  column : Nat
deriving DecidableEq, Repr

/-- The machine's state (10 R20). The fields up to `refusalMark` are the spec's, after the parameters `cfg`; the others are
the model's own. -/
structure State where
  /-- B, ENGINE_BASE and the platform's parameters: configuration that no step changes (10 R20, log 1). -/
  cfg : Config
  /-- DATA at 0x1000 (10 R21), the stored fingerprint at 0x2000 (10 R24 to R27), the fresh one at 0x3000 (10 R29), and by
  what is listed the write marks (10 R39). -/
  mem : Memory
  /-- STATUS.BUSY (10 R33). -/
  busy : Bool
  /-- STATUS.VALID (10 R34). -/
  valid : Bool
  /-- FLIPS (10 R35). -/
  flips : Word
  /-- PEND, the command in flight or none (10 R36). -/
  pend : Option Instr
  /-- The sticky fault mark and what it records (10 R40, 60 R142). -/
  faultMark : Option Fault
  /-- The sticky refusal mark (10 R40, 60 R131). -/
  refusalMark : Option RefusalReason
  /-- How many draws of VALID have been taken: the argument of the free value `Config.validDraw` (log 6). -/
  draws : Nat
  /-- The schedule: whose turns come next (log 9). -/
  turns : List Turn
  /-- The rest of the host's program (30 R79). -/
  prog : List HostOp
  /-- The values the host's names hold (30 R79), names strictly rising. -/
  names : List (HostName × Word)
  /-- The optional trace of diagnostic events: not architectural, no rule reads it (10 R44, 60 R139). -/
  events : List DiagEvent
deriving DecidableEq, Repr

/-- An engine with parameters `c` right after reset (10 R41, R42; 70 R148): the control registers 0, no command in flight,
all storage unwritten; no mark, no program and no schedule. -/
def State.resetWith (c : Config) : State :=
  { cfg := c, mem := [], busy := false, valid := false, flips := 0#32, pend := none, faultMark := none, refusalMark := none,
    draws := 0, turns := [], prog := [], names := [], events := [] }

/-- The machine right after reset, with the parameters of `Config.default` (log 1). -/
def State.reset : State := State.resetWith Config.default

end Sys2Proof.Machine
end

