-- ==== Sys2Proof/Machine/Ops.lean ====
section
/-! DEFINITION. The operations every meaning shares: bytes and words of the storage, the offsets of its windows (20 R47 to R49), the recording of a model fault or a refusal (60 R129, R131), and reset (70 R147). The engine takes no exception and returns from none (60 R127, R134, R135). -/

namespace Sys2Proof.Machine

/-! ## Storage -/

/-- The canonical form: listed offsets strictly rise. An unlisted byte has no value, so no listed byte can equal it. -/
abbrev Memory.wf (m : Memory) : Prop := m.Pairwise (fun x y => x.1 < y.1)

/-- The byte at offset `a`, if one has been written. -/
def Memory.readByte : Memory → Nat → Option Byte
  | [], _ => none
  | (k, v) :: m, a => if k = a then some v else Memory.readByte m a

/-- Writes one byte, keeping the offsets rising. -/
def Memory.writeByte : Memory → Nat → Byte → Memory
  | [], a, b => [(a, b)]
  | (k, v) :: m, a, b =>
    if a < k then (a, b) :: (k, v) :: m
    else if a = k then (a, b) :: m
    else (k, v) :: Memory.writeByte m a b

/-- Byte `j` of a word, byte 0 the least significant. Inside the listing byte 0 lies lowest; no access shows it (log 4). -/
def byteOf (w : Word) (j : Nat) : Byte := w.extractLsb' (8 * j) 8

/-- The word whose bytes are given, the least significant first. -/
def wordOf (b0 b1 b2 b3 : Byte) : Word := (b3 ++ b2 ++ b1 ++ b0 : BitVec 32)

/-- The word at offset `off`: `none` is the write mark `unwritten` (10 R39, log 5). -/
def Memory.readWord (m : Memory) (off : Nat) : Option Word :=
  match m.readByte off, m.readByte (off + 1), m.readByte (off + 2), m.readByte (off + 3) with
  | some b0, some b1, some b2, some b3 => some (wordOf b0 b1 b2 b3)
  | _, _, _, _ => none

/-- Writes the word at offset `off` and so marks it written (10 R39). -/
def Memory.writeWord (m : Memory) (off : Nat) (w : Word) : Memory :=
  (((m.writeByte off (byteOf w 0)).writeByte (off + 1) (byteOf w 1)).writeByte (off + 2) (byteOf w 2)).writeByte
    (off + 3) (byteOf w 3)

/-- The `n` words from offset `off` on, or the offset of the lowest one that is unwritten (60 R132). -/
def Memory.readWords (m : Memory) (off : Nat) : Nat → Except Nat (List Word)
  | 0 => .ok []
  | n + 1 =>
    match m.readWord off with
    | none => .error off
    | some w =>
      match Memory.readWords m (off + 4) n with
      | .ok ws => .ok (w :: ws)
      | .error a => .error a

/-- Writes words from offset `off` on. -/
def Memory.writeWords (m : Memory) (off : Nat) : List Word → Memory
  | [] => m
  | w :: ws => Memory.writeWords (m.writeWord off w) (off + 4) ws

/-- Flips bit `n` (by weight) of the word at `off`; an unwritten word stays unwritten (log 16). -/
def Memory.flipBit (m : Memory) (off n : Nat) : Memory :=
  match m.readWord off with
  | some w => m.writeWord off (w ^^^ (1#32 <<< n))
  | none => m

/-! ## The windows (20 R46 to R49) -/

/-- `DATA[r]` is at offset `0x1000 + 4*r` (20 R47). -/
def dataOff (r : Nat) : Nat := 0x1000 + 4 * r

/-- Stored fingerprint word `k` is at offset `0x2000 + 4*k` (20 R48). -/
def fpsOff (k : Nat) : Nat := 0x2000 + 4 * k

/-- Fresh fingerprint word `k` is at offset `0x3000 + 4*k` (20 R49). -/
def fpfOff (k : Nat) : Nat := 0x3000 + 4 * k

/-! ## Model outcomes (60 R129 to R131) -/

/-- The code of a fault kind (60 R130). -/
def Fault.code : Fault → Nat
  | .unwritten _ => 1
  | .busyHazard _ => 2
  | .badAccess _ => 3

/-- The byte offset a fault records (60 R142). -/
def Fault.offset : Fault → Nat
  | .unwritten off => off
  | .busyHazard off => off
  | .badAccess off => off

/-- `raise ModelFault(kind, off)` (60 R129): the step ends with none of its writes done. -/
def raise (f : Fault) : Host.Outcome State Fault Refusal := .fault f

/-- Sets the sticky fault mark; a mark already set stays as it was first recorded (10 R40, log 8). -/
def State.markFault (s : State) (f : Fault) : State :=
  { s with faultMark := s.faultMark.or (some f) }

/-- The reason that a refusal records (60 R131); one that is no refusal of the spec records none (log 23). -/
def Refusal.reason : Refusal → Option RefusalReason
  | .reservedCommand => some .reservedCommand
  | _ => none

/-- Sets the sticky refusal mark; a mark already set stays as it was first recorded (10 R40, log 8). -/
def State.markRefusal (s : State) (r : Refusal) : State :=
  { s with refusalMark := s.refusalMark.or r.reason }

/-- The state that a step's outcome leaves (60 R129, R131, R143): a step that faults or is refused changes nothing but the
mark (log 8). -/
def settle (s : State) : Host.Outcome State Fault Refusal → State
  | .next t => t
  | .fault f => s.markFault f
  | .refused r => s.markRefusal r

/-! ## Reset (70 R147 to R149) -/

/-- The reset step (70 R147): the control registers go to their reset values, a command in flight is discarded (70 R149), all
storage is unwritten, and the marks stay (70 R148). The host's program and the model's own fields are not the engine's
(log 21). -/
def State.applyReset (s : State) : State :=
  { s with mem := [], busy := false, valid := false, flips := 0#32, pend := none }

end Sys2Proof.Machine
end

