-- ==== Sys2Proof/Machine/Flags.lean ====
section
/-! DEFINITION. The status register and the result registers: STATUS as the host reads it (10 R32, R34), BUSY and PEND at issue and completion (30 R74, R76), VALID (10 R34) and FLIPS (10 R35). -/

namespace Sys2Proof.Machine

/-- `zext_32(VALID : BUSY)` (20 R53): BUSY in bit 0, VALID in bit 1, bits 31:2 read as 0 (10 R32). -/
def statusWord (validBit busyBit : Bool) : Word :=
  (BitVec.ofBool validBit ++ BitVec.ofBool busyBit).setWidth 32

/-- What STATUS.VALID reads as: the verdict of the last CHECK, or a draw while BUSY = 1 (10 R34, log 6). -/
def State.validRead (s : State) : Bool :=
  if s.busy then Config.validDraw s.draws else s.valid

/-- STATUS as a host read returns it (20 R53). -/
def State.status (s : State) : Word := statusWord s.validRead s.busy

/-- An accepted issue sets PEND and BUSY and changes nothing else (30 R74). -/
def State.setPending (s : State) (i : Instr) : State := { s with pend := some i, busy := true }

/-- A completion clears PEND and BUSY (30 R76). -/
def State.clearPending (s : State) : State := { s with pend := none, busy := false }

/-- CHECK's completion writes VALID (10 R34). -/
def State.setValid (s : State) (b : Bool) : State := { s with valid := b }

/-- REPAIR's completion writes FLIPS, a 32-bit unsigned count (10 R35, 42 R119). -/
def State.setFlips (s : State) (n : Nat) : State := { s with flips := BitVec.ofNat 32 n }

end Sys2Proof.Machine
end

