-- ==== Sys2Proof/Machine/Parity.lean ====
section
/-! DEFINITION. hvd_parity_computer's functions (40 R85 to R96): the four line families, the fresh fingerprint they give, and the accumulator procedures of the source. A DATA array is the list of its words; `B` is BLOCK_COUNT. -/

namespace Sys2Proof.Machine

/-! ## Bits and words (00 R13 to R15) -/

/-- The word whose bit `n` by weight is `f n`, for the bits below `k`. -/
def ofBitsBelow (f : Nat → Bool) : Nat → Word
  | 0 => 0#32
  | k + 1 => ofBitsBelow f k ||| (if f k then 1#32 <<< k else 0#32)

/-- The word whose bit `n` by weight is `f n` (00 R13). -/
def ofBits (f : Nat → Bool) : Word := ofBitsBelow f 32

/-- The word whose MSB-first offset `k` holds `f k` (00 R14). -/
def ofBitsMsb (f : Nat → Bool) : Word := ofBits (fun n => f (31 - n))

/-- `msb(w, k) = w[31 - k]` (00 R14). -/
def msb (w : Word) (k : Nat) : Bool := w.getLsbD (31 - k)

/-- `setmsb(w, k, b)` (00 R14). -/
def setmsb (w : Word) (k : Nat) (b : Bool) : Word :=
  ofBits (fun n => if n = 31 - k then b else w.getLsbD n)

/-- `rev32(x)[n] = x[31 - n]` (00 R15). -/
def rev32 (x : Word) : Word := ofBits (fun n => x.getLsbD (31 - n))

/-- The XOR of `f 0 .. f (n - 1)`. -/
def xorBelow (n : Nat) (f : Nat → Bool) : Bool :=
  match n with
  | 0 => false
  | k + 1 => xor (xorBelow k f) (f k)

/-- `parity32(x)`: the XOR of all 32 bits (00 R15). -/
def parity32 (x : Word) : Bool := xorBelow 32 (fun n => x.getLsbD n)

/-! ## The bit matrix and its lines (10 R22, 40 R85, R88, R89) -/

/-- `DATA[r]`; rows past the end hold no bit. -/
def rowWord (D : List Word) (r : Nat) : Word := D.getD r 0#32

/-- `bit(r, c) = DATA[r][31 - c]` (10 R22), for a column `c < 32`. -/
def matrixBit (D : List Word) (r c : Nat) : Bool := (rowWord D r).getLsbD (31 - c)

/-- The four line families (40 R85). -/
inductive LineFamily where
  | row
  | column
  | slash
  | backslash
deriving DecidableEq, Repr

/-- The line of the data bit `(r, c)` in a family (40 R85). -/
def LineFamily.lineOf : LineFamily → Nat → Nat → Nat
  | .row, r, _ => r
  | .column, _, c => c
  | .slash, r, c => r + c
  | .backslash, r, c => r + 31 - c

/-- How many lines a family has (40 R85). -/
def LineFamily.lineCount (B : Nat) : LineFamily → Nat
  | .row => 32 * B
  | .column => 32
  | .slash => 32 * B + 31
  | .backslash => 32 * B + 31

/-- The parity of line `d` of a family: the XOR of `bit(r, c)` over all `r < R` and `c < 32` that lie on it (40 R88, R89). -/
def lineParity (D : List Word) (f : LineFamily) (d : Nat) : Bool :=
  xorBelow D.length (fun r => xorBelow 32 (fun c => f.lineOf r c == d && matrixBit D r c))

/-! ## The fingerprint (40 R86, R87, R90, R96) -/

/-- A fingerprint, stored or fresh, in the source's member order (10 R30). -/
structure Fingerprint where
  h : List Word
  v : Word
  sd : List Word
  bd : List Word
deriving DecidableEq, Repr

/-- The fingerprint's words in the order of the windows (10 R30). -/
def Fingerprint.words (f : Fingerprint) : List Word := f.h ++ f.v :: (f.sd ++ f.bd)

/-- The fingerprint whose window words are given (10 R30). -/
def Fingerprint.ofWords (B : Nat) (ws : List Word) : Fingerprint :=
  { h := ws.take B, v := ws.getD B 0#32, sd := (ws.drop (B + 1)).take (B + 1), bd := (ws.drop (2 * B + 2)).take (B + 1) }

/-- `HPar` (40 R86): bit `n` by weight of word `i` is the parity of row `32*i + n`. -/
def hPar (B : Nat) (D : List Word) : List Word :=
  (List.range B).map fun i => ofBits fun n => parity32 (rowWord D (32 * i + n))

/-- `VPar` (40 R87): the XOR of every row. -/
def vPar (D : List Word) : Word := D.foldl (· ^^^ ·) 0#32

/-- The packing of a diagonal family (40 R90): line `d` at word `d / 32`, MSB-first offset `d mod 32`. The offset of a line
that does not exist is 0. -/
def diagPar (B : Nat) (D : List Word) (f : LineFamily) : List Word :=
  (List.range (B + 1)).map fun i =>
    ofBitsMsb fun k => 32 * i + k < f.lineCount B && lineParity D f (32 * i + k)

/-- `SDPar` (40 R90). -/
def sdPar (B : Nat) (D : List Word) : List Word := diagPar B D .slash

/-- `BDPar` (40 R90). -/
def bdPar (B : Nat) (D : List Word) : List Word := diagPar B D .backslash

/-- `FP(DATA)` (40 R96): a pure, total function of DATA. -/
def freshFp (B : Nat) (D : List Word) : Fingerprint :=
  { h := hPar B D, v := vPar D, sd := sdPar B D, bd := bdPar B D }

/-- Each word of one fingerprint XORed with the other's (40 R100). -/
def Fingerprint.xor (f g : Fingerprint) : Fingerprint :=
  { h := List.zipWith (· ^^^ ·) f.h g.h, v := f.v ^^^ g.v, sd := List.zipWith (· ^^^ ·) f.sd g.sd,
    bd := List.zipWith (· ^^^ ·) f.bd g.bd }

/-! ## The source's procedures (40 R91 to R94) -/

/-- `par4(x) = (0x6996 >> x) & 1` (40 R91). -/
def par4 (x : BitVec 4) : Bool := (0x6996#16 >>> x.toNat).getLsbD 0

/-- `rowpar(w)` (40 R91): the XOR of the parities of the eight 4-bit groups. -/
def nibbleParity (w : Word) : Bool :=
  xorBelow 8 (fun g => par4 (w.extractLsb' (4 * g) 4))

/-- The horizontal fingerprint by the nibble table (40 R91). -/
def hProc (B : Nat) (D : List Word) : List Word :=
  (List.range B).map fun i => ofBits fun n => nibbleParity (rowWord D (32 * i + n))

/-- The accumulator and the output words of a diagonal procedure (40 R93, R94). -/
structure DiagAcc where
  acc : Word
  out : List Word
deriving DecidableEq, Repr

/-- One row of the slash procedure (40 R93): the shift comes after every row, the last of a block included (90 C2). -/
def slashRow (st : DiagAcc) (w : Word) (r : Nat) : DiagAcc :=
  let acc := st.acc ^^^ w
  { acc := acc <<< 1, out := st.out.modify (r / 32) (fun x => setmsb x (r % 32) (acc.getLsbD 31)) }

/-- One row of the back-slash procedure (40 R94): the least significant bit and a logical right shift. -/
def backslashRow (st : DiagAcc) (w : Word) (r : Nat) : DiagAcc :=
  let acc := st.acc ^^^ w
  { acc := acc >>> 1, out := st.out.modify (r / 32) (fun x => setmsb x (r % 32) (acc.getLsbD 0)) }

/-- Runs a row step over the rows of DATA from row `r` on. -/
def runRows (row : DiagAcc → Word → Nat → DiagAcc) (st : DiagAcc) (r : Nat) : List Word → DiagAcc
  | [] => st
  | w :: ws => runRows row (row st w r) (r + 1) ws

/-- The accumulator "seeded at zero", the outputs all 0 (40 R93, R94). -/
def DiagAcc.start (B : Nat) : DiagAcc := { acc := 0#32, out := List.replicate (B + 1) 0#32 }

/-- The slash procedure (40 R93): the accumulator after its last shift is the last word. -/
def slashProc (B : Nat) (D : List Word) : List Word :=
  let st := runRows slashRow (DiagAcc.start B) 0 D
  st.out.set B st.acc

/-- The back-slash procedure (40 R94): the last word is the full 32-bit reversal of the accumulator (90 C3). -/
def backslashProc (B : Nat) (D : List Word) : List Word :=
  let st := runRows backslashRow (DiagAcc.start B) 0 D
  st.out.set B (rev32 st.acc)

/-- The fingerprint by the source's procedures (40 R91 to R94). -/
def procFp (B : Nat) (D : List Word) : Fingerprint :=
  { h := hProc B D, v := vPar D, sd := slashProc B D, bd := backslashProc B D }

end Sys2Proof.Machine
end

