-- ==== Sys2Proof/Machine/Operands.lean ====
section
/-! DEFINITION. What a command and a host access read and name: the block's words with the order in which unwritten ones are reported (60 R132), the offsets of the window (20 R45 to R50), and the values of a host program's expressions (30 R79). -/

namespace Sys2Proof.Machine

/-! ## The operands of the commands (30 R69) -/

/-- DATA as a command reads it, or the fault of the lowest unwritten word (40 R97). -/
def State.readData (s : State) : Except Fault (List Word) :=
  match s.mem.readWords (dataOff 0) s.cfg.R with
  | .ok D => .ok D
  | .error off => .error (.unwritten off)

/-- The stored fingerprint as a command reads it, or the fault of its lowest unwritten word (41 R105). -/
def State.readStored (s : State) : Except Fault Fingerprint :=
  match s.mem.readWords (fpsOff 0) s.cfg.fpWords with
  | .ok ws => .ok (Fingerprint.ofWords s.cfg.B ws)
  | .error off => .error (.unwritten off)

/-- The Protected Block as CHECK and REPAIR read it: DATA first, then the stored fingerprint (60 R132). -/
def State.readBlock (s : State) : Except Fault (List Word × Fingerprint) :=
  match s.readData with
  | .error f => .error f
  | .ok D =>
    match s.readStored with
    | .error f => .error f
    | .ok st => .ok (D, st)

/-! ## The offsets of the window -/

/-- What an offset of the window names (20 R46 to R50). -/
inductive Region where
  | cmd
  | status
  | flips
  | data
  | fps
  | fpf
  | reserved
deriving DecidableEq, Repr

/-- The region of an offset; every offset not named by 20 R46 to R49 is reserved (20 R50), those past the window too (log 12). -/
def regionOf (c : Config) (off : Nat) : Region :=
  if off = 0x0000 then .cmd
  else if off = 0x0004 then .status
  else if off = 0x0008 then .flips
  else if dataOff 0 ≤ off ∧ off < dataOff c.R then .data
  else if fpsOff 0 ≤ off ∧ off < fpsOff c.fpWords then .fps
  else if fpfOff 0 ≤ off ∧ off < fpfOff c.fpWords then .fpf
  else .reserved

/-- A whole aligned word at a named offset (20 R50, R51, R52). -/
def wordAccess (c : Config) (off width : Nat) : Bool :=
  regionOf c off != .reserved && off % 4 == 0 && width == 4

/-- An access the window admits in the read direction (20 R53): CMD is write-only. -/
def readable (c : Config) (off width : Nat) : Bool :=
  wordAccess c off width && regionOf c off != .cmd

/-- An access the window admits in the write direction (20 R54): STATUS, FLIPS and the fresh fingerprint are read-only. -/
def writable (c : Config) (off width : Nat) : Bool :=
  wordAccess c off width &&
    (regionOf c off == .cmd || regionOf c off == .data || regionOf c off == .fps)

/-- The address of an offset in the host's address space (00 R12). -/
def addressOf (c : Config) (off : Nat) : Nat := c.engineBase + off

/-- The offset of a host address inside the 0x4000-byte window at ENGINE_BASE (20 R45), if it lies there. -/
def offsetOf (c : Config) (addr : Nat) : Option Nat :=
  if c.engineBase ≤ addr ∧ addr < c.engineBase + 0x4000 then some (addr - c.engineBase) else none

/-- The bytes of a word in the order in which the host bus carries them (20 R56): no engine rule reads it.
That only these two mappings are admitted is a DESIGN CHOICE (log 3). -/
def busLanes (c : Config) (w : Word) : List Byte :=
  match c.busByteOrder with
  | .little => [byteOf w 0, byteOf w 1, byteOf w 2, byteOf w 3]
  | .big => [byteOf w 3, byteOf w 2, byteOf w 1, byteOf w 0]

/-! ## A host program's names and expressions (30 R79) -/

/-- The value a name holds. -/
def lookupName : List (HostName × Word) → HostName → Option Word
  | [], _ => none
  | (y, w) :: ns, x => if y = x then some w else lookupName ns x

/-- Gives a name a value, keeping the names rising. -/
def bindName : List (HostName × Word) → HostName → Word → List (HostName × Word)
  | [], x, w => [(x, w)]
  | (y, v) :: ns, x, w =>
    if x < y then (x, w) :: (y, v) :: ns
    else if x = y then (x, w) :: ns
    else (y, v) :: bindName ns x w

/-- The value a program reads from a name: what was bound to it last, or a free value (log 14). -/
def nameValue (ns : List (HostName × Word)) (x : HostName) : Word := (lookupName ns x).getD (Config.unboundName x)

/-- The value of an expression. -/
def evalExpr (ns : List (HostName × Word)) : HostExpr → Word
  | .const w => w
  | .name x => nameValue ns x
  | .xor a b => evalExpr ns a ^^^ evalExpr ns b
  | .bit e n => if (evalExpr ns e).getLsbD n then 1#32 else 0#32

end Sys2Proof.Machine
end

