-- ==== Sys2Proof/Machine/Check.lean ====
section
/-! DEFINITION. CHECK, the command of multi_line_parity_checker (41 R105 to R107). -/

namespace Sys2Proof.Machine

/-- The verdict (41 R105): the fresh words agree with the stored ones, all of them, every bit included (41 R106, R112). -/
def verdict (stored fresh : Fingerprint) : Bool :=
  fresh.h == stored.h && fresh.v == stored.v && fresh.sd == stored.sd && fresh.bd == stored.bd

/-- `ExecCheck` (41 R105): compares a snapshot's fingerprint with the stored one and writes VALID alone (41 R107). -/
def execCheck (s : State) : Host.Outcome State Fault Refusal :=
  match s.readBlock with
  | .error f => raise f
  | .ok (D, stored) => .next (s.setValid (verdict stored (freshFp s.cfg.B D)))

end Sys2Proof.Machine
end

