-- ==== Sys2Proof/Machine/Compute.lean ====
section
/-! DEFINITION. COMPUTE, the command of hvd_parity_computer (40 R97, R98). -/

namespace Sys2Proof.Machine

/-- Writes every word of the fresh fingerprint window and so marks it written (40 R97). -/
def State.writeFresh (s : State) (f : Fingerprint) : State :=
  { s with mem := s.mem.writeWords (fpfOff 0) f.words }

/-- `ExecCompute` (40 R97): the fresh fingerprint of DATA lands in FH, FV, FSD, FBD and nowhere else (40 R98). -/
def execCompute (s : State) : Host.Outcome State Fault Refusal :=
  match s.readData with
  | .error f => raise f
  | .ok D => .next (s.writeFresh (freshFp s.cfg.B D))

end Sys2Proof.Machine
end

