-- ==== Sys2Proof/Machine/Repair.lean ====
section
/-! DEFINITION. REPAIR, the command of error_locator_and_fixer (42 R113 to R126). -/

namespace Sys2Proof.Machine

/-- Row `i` is suspect (42 R114): bit `i mod 32` by weight of H[i / 32] differs from the snapshot's. -/
def suspectRow (stored fresh : Fingerprint) (i : Nat) : Bool :=
  (stored.h.getD (i / 32) 0#32).getLsbD (i % 32) != (fresh.h.getD (i / 32) 0#32).getLsbD (i % 32)

/-- Column `j`, counted from the most significant bit, is suspect (42 R115): bit `31 - j` of V differs from the snapshot's. -/
def suspectColumn (stored fresh : Fingerprint) (j : Nat) : Bool :=
  stored.v.getLsbD (31 - j) != fresh.v.getLsbD (31 - j)

/-- Line `d` of a diagonal fingerprint mismatches (42 R116): word `d / 32`, MSB-first offset `d mod 32`. -/
def lineMismatch (stored fresh : List Word) (d : Nat) : Bool :=
  msb (stored.getD (d / 32) 0#32) (d % 32) != msb (fresh.getD (d / 32) 0#32) (d % 32)

/-- The pair `(i, j)` is flipped (42 R117): its row, column, slash line and back-slash line all mismatch. -/
def flipsPair (stored fresh : Fingerprint) (i j : Nat) : Bool :=
  suspectRow stored fresh i && suspectColumn stored fresh j &&
    (lineMismatch stored.sd fresh.sd (i + j) && lineMismatch stored.bd fresh.bd (i + 31 - j))

/-- Every pair of a row below `R` and a column, rows first, each once (42 R117, R126). -/
def allPairs (R : Nat) : List (Nat × Nat) :=
  (List.range R).flatMap fun i => (List.range 32).map fun j => (i, j)

/-- The pairs one REPAIR flips, all decided from the one snapshot (42 R118). -/
def repairPairs (R : Nat) (stored fresh : Fingerprint) : List (Nat × Nat) :=
  (allPairs R).filter fun p => flipsPair stored fresh p.1 p.2

/-- `data[i] ^= 1 << (31 - j)` (42 R117). -/
def flipPair (D : List Word) (p : Nat × Nat) : List Word :=
  D.modify p.1 (· ^^^ (1#32 <<< (31 - p.2)))

/-- DATA after the flips of the given pairs (42 R113). -/
def applyFlips (D : List Word) (ps : List (Nat × Nat)) : List Word := ps.foldl flipPair D

/-- Writes every word of DATA. -/
def State.writeData (s : State) (D : List Word) : State :=
  { s with mem := s.mem.writeWords (dataOff 0) D }

/-- The optional diagnostic events of the flipped pairs, on the platform's channel (60 R139, log 17). -/
def State.emitEvents (s : State) (ps : List (Nat × Nat)) : State :=
  match s.cfg.events with
  | .dropped => s
  | .recorded => { s with events := s.events ++ ps.map fun p => { row := p.1, column := p.2 } }

/-- `ExecRepair` (42 R113): flips the located bits of DATA, sets FLIPS to their number (42 R119), and writes nothing else
(42 R124). -/
def execRepair (s : State) : Host.Outcome State Fault Refusal :=
  match s.readBlock with
  | .error f => raise f
  | .ok (D, stored) =>
    let ps := repairPairs s.cfg.R stored (freshFp s.cfg.B D)
    .next (((s.writeData (applyFlips D ps)).setFlips ps.length).emitEvents ps)

end Sys2Proof.Machine
end

