-- ==== Sys2Proof/Machine/Dispatch.lean ====
section
/-! DEFINITION. The meaning of each command: the Exec function that a completion calls (30 R76). -/

namespace Sys2Proof.Machine

def exec (i : Instr) (s : State) : Host.Outcome State Fault Refusal :=
  match i with
  | .compute => Sys2Proof.Machine.execCompute s
  | .check => Sys2Proof.Machine.execCheck s
  | .repair => Sys2Proof.Machine.execRepair s

end Sys2Proof.Machine
end

