-- ==== Sys2Proof/WellFormed.lean ====
section
/-! DEFINITION. What the spec asks of a command word (30 R67, R70) and of a host program in its notation (30 R79). A command of `Instr` has no operand (30 R69), so nothing about it can be ill-formed. -/

namespace Sys2Proof

/-- A command as abstract data is always well-formed: it has no operand, register field or immediate (30 R69). -/
def Instr.wf : Instr → Bool
  | .compute => true
  | .check => true
  | .repair => true

/-- A command word software may write (30 R67, R70): RSVD (bits 31:8) is 0 and OP (bits 7:0) is 0x01, 0x02 or 0x03. -/
def wellFormedCommandWord (w : Word) : Bool :=
  w.extractLsb' 8 24 == 0#24 && 1 ≤ (w.extractLsb' 0 8).toNat && (w.extractLsb' 0 8).toNat ≤ 3

/-- A host expression reads only names that are bound, and tests a bit of a 32-bit word. -/
def HostExpr.wf (bound : List HostName) : HostExpr → Bool
  | .const _ => true
  | .name x => bound.contains x
  | .xor a b => a.wf bound && b.wf bound
  | .bit e n => e.wf bound && n < 32

/-- The names an operation binds. -/
def HostOp.binds : HostOp → List HostName
  | .read _ _ x => [x]
  | .write _ _ _ => []
  | .poll x => [x]
  | .set x _ => [x]
  | .skipIf _ _ => []

/-- An offset of the notation: a word offset of the 0x4000-byte window (20 R45, R51, R52). -/
def wellFormedOffset (off : Nat) : Bool := off % 4 == 0 && off < 0x4000

/-- One operation in the notation of 30 R79: its accesses are whole aligned words of the window, its expressions read bound
names, and a skip stays inside the rest of the program. -/
def HostOp.wf (bound : List HostName) (rest : Nat) : HostOp → Bool
  | .read off width _ => wellFormedOffset off && width == 4
  | .write off width e => wellFormedOffset off && width == 4 && e.wf bound
  | .poll _ => true
  | .set _ e => e.wf bound
  | .skipIf e n => e.wf bound && n ≤ rest

/-- A host program in the notation of 30 R79, read from its first operation with the names already bound. A name counts as
bound from the operation that binds it on, whether or not a skip leaves that operation out. -/
def wellFormedProgram (bound : List HostName) : List HostOp → Bool
  | [] => true
  | op :: rest => op.wf bound rest.length && wellFormedProgram (op.binds ++ bound) rest

end Sys2Proof
end

