-- ==== Sys2Proof/Decode.lean ====
section
/-! DEFINITION. The command decoder of 30 R72, total on every 32-bit word, and the encoder of the opcode table beside it. -/

namespace Sys2Proof

/-- Why a command word is rejected: the spec has one reason (60 R131). -/
inductive DecodeError where
  /-- OP is not 0x01, 0x02 or 0x03, or RSVD is not 0 (30 R70). -/
  | reservedCommand
deriving DecidableEq, Repr

/-- The field OP, bits 7:0 (30 R67). -/
def opField (w : Word) : BitVec 8 := w.extractLsb' 0 8

/-- The field RSVD, bits 31:8 (30 R67). -/
def rsvdField (w : Word) : BitVec 24 := w.extractLsb' 8 24

/-- The opcode map (30 R68): every other value is reserved. -/
def decodeOp (op : BitVec 8) : Except DecodeError Instr :=
  if op = 0x01#8 then .ok .compute
  else if op = 0x02#8 then .ok .check
  else if op = 0x03#8 then .ok .repair
  else .error .reservedCommand

/-- `Decode` (30 R72): RSVD is looked at first, then OP. -/
def decode (w : Word) : Except DecodeError Instr :=
  if rsvdField w ≠ 0#24 then .error .reservedCommand else decodeOp (opField w)

/-- The opcode of a command (30 R68). -/
def opcodeOf : Instr → BitVec 8
  | .compute => 0x01#8
  | .check => 0x02#8
  | .repair => 0x03#8

/-- The command word of a command (30 R67, R68): RSVD = 0 above OP. Every command is one word long (30 R73). -/
def encode (i : Instr) : Word := (0#24 ++ opcodeOf i : BitVec 32)

/-- One row of the opcode table (30 R72): a word `w` selects the row when `w & mask = pattern`. -/
structure OpcodeRow where
  mask : Word
  pattern : Word
  instr : Instr
deriving DecidableEq, Repr

/-- The opcode table (30 R68, R72): "each row of opcode_table.json has mask 0xFFFFFFFF". -/
def opcodeTable : List OpcodeRow :=
  [⟨0xFFFFFFFF#32, 0x00000001#32, .compute⟩,
   ⟨0xFFFFFFFF#32, 0x00000002#32, .check⟩,
   ⟨0xFFFFFFFF#32, 0x00000003#32, .repair⟩]

def OpcodeRow.selects (r : OpcodeRow) (w : Word) : Bool := (w &&& r.mask) == r.pattern

/-- The command the decoder reads from a table row's bits `w`, `nbits` of them. A command is one 32-bit word of one CMD
write (30 R67, R73), so a longer one is no command (log 19); bits above `nbits` are 0. -/
def decodeTableWord (nbits w : Nat) : Option Instr :=
  if nbits ≤ 32 then
    match decode (BitVec.ofNat 32 (w % 2 ^ nbits)) with
    | .ok i => some i
    | .error _ => none
  else none

end Sys2Proof
end

