-- ==== Sys2Proof/Machine/HostAccess.lean ====
section
/-! DEFINITION. The host's bus accesses: `MemRead` (20 R53), `MemWrite` (20 R54), and the issue of a command (30 R74, R75). -/

namespace Sys2Proof.Machine

/-- The word at a storage offset, or the Unwritten fault (10 R39). -/
def State.storedWord (s : State) (off : Nat) : Except Fault Word :=
  match s.mem.readWord off with
  | some w => .ok w
  | none => .error (.unwritten off)

/-- `MemRead(off, width)` (20 R53): BadAccess, then STATUS, then BusyHazard, then Unwritten (60 R132). -/
def memRead (s : State) (off width : Nat) : Except Fault Word :=
  if !readable s.cfg off width then .error (.badAccess off)
  else if regionOf s.cfg off = .status then .ok s.status
  else if s.busy then .error (.busyHazard off)
  else if regionOf s.cfg off = .flips then .ok s.flips
  else s.storedWord off

/-- A read changes no state of the engine (20 R53, R58); a STATUS read while BUSY = 1 takes a draw (10 R34, log 6). -/
def State.afterRead (s : State) (off : Nat) : State :=
  if s.busy && regionOf s.cfg off == .status then { s with draws := s.draws + 1 } else s

/-- `IssueCommand(w)` (30 R74): BUSY is checked before decoding (30 R75), a reserved word is refused (30 R70). -/
def issueCommand (s : State) (w : Word) : Host.Outcome State Fault Refusal :=
  if s.busy then raise (.busyHazard 0x0000)
  else
    match decode w with
    | .error .reservedCommand => .refused .reservedCommand
    | .ok i => .next (s.setPending i)

/-- Writes one word of DATA or of the stored fingerprint and marks it written (20 R54). -/
def State.writeStorage (s : State) (off : Nat) (w : Word) : State :=
  { s with mem := s.mem.writeWord off w }

/-- `MemWrite(off, width, v)` (20 R54): BadAccess, then the issue of a command, then BusyHazard (60 R132). -/
def memWrite (s : State) (off width : Nat) (v : Word) : Host.Outcome State Fault Refusal :=
  if !writable s.cfg off width then raise (.badAccess off)
  else if regionOf s.cfg off = .cmd then issueCommand s v
  else if s.busy then raise (.busyHazard off)
  else .next (s.writeStorage off v)

/-- A host read by its address (00 R12, 20 R45); an address outside the window is no access of the engine's (log 12). -/
def busRead (s : State) (addr width : Nat) : Option (Except Fault Word) :=
  match offsetOf s.cfg addr with
  | some off => some (memRead s off width)
  | none => none

/-- A host write by its address (00 R12, 20 R45). -/
def busWrite (s : State) (addr width : Nat) (v : Word) : Option (Host.Outcome State Fault Refusal) :=
  match offsetOf s.cfg addr with
  | some off => some (memWrite s off width v)
  | none => none

end Sys2Proof.Machine
end

