-- ==== Sys2Proof/Machine/HostProgram.lean ====
section
/-! DEFINITION. One operation of a host program (30 R79), and the expansions of the pseudo-instructions (30 R80 to R84). -/

namespace Sys2Proof.Machine

/-! ## Pseudo-instructions -/

/-- `CMD op` (30 R79): the command word of `op` written to CMD. -/
def cmdOp (i : Instr) : HostOp := .write 0x0000 4 (.const (encode i))

/-- `RUN op == CMD op; POLL` (30 R80). `x` names the status it polls. -/
def runOps (i : Instr) (x : HostName) : List HostOp := [cmdOp i, .poll x]

/-- `RD off -> t; WR off, t ^ (1 << n)`, the flip of one bit of a word of the window (30 R81). -/
def flipOps (off n : Nat) (t : HostName) : List HostOp :=
  [.read off 4 t, .write off 4 (.xor (.name t) (.const (1#32 <<< n)))]

/-- `FLIP r, n` (30 R81). -/
def flipDataOps (r n : Nat) (t : HostName) : List HostOp := flipOps (dataOff r) n t

/-- `FLIPFP k, n` (30 R81). -/
def flipFpOps (k n : Nat) (t : HostName) : List HostOp := flipOps (fpsOff k) n t

/-- `STAMP` (30 R82): COMPUTE, then one read of the fresh and one write of the stored fingerprint for each word. -/
def stampOps (c : Config) (t : HostName) : List HostOp :=
  runOps .compute t ++
    (List.range c.fpWords).flatMap fun k => [.read (fpfOff k) 4 t, .write (fpsOff k) 4 (.name t)]

/-- `VERIFY -> ok` (30 R83). -/
def verifyOps (x ok : HostName) : List HostOp :=
  runOps .check x ++ [.read 0x0004 4 x, .set ok (.bit (.name x) 1)]

/-- `SCRUB -> (ok0, n, ok1)` (30 R84): the repair and the second check are left out when the first check says valid. -/
def scrubOps (x ok0 n ok1 : HostName) : List HostOp :=
  let thenOps : List HostOp := runOps .repair x ++ .read 0x0008 4 n :: verifyOps x ok1
  let elseOps : List HostOp := [.set n (.const 0#32), .set ok1 (.const 1#32)]
  verifyOps x ok0 ++ .skipIf (.name ok0) (thenOps.length + 1) :: thenOps ++
    .skipIf (.const 1#32) elseOps.length :: elseOps

/-! ## One operation -/

/-- What the host's program and names are after an operation. -/
def State.setHost (s : State) (prog : List HostOp) (names : List (HostName × Word)) : State :=
  { s with prog := prog, names := names }

/-- A read of the notation (30 R79): one bus read, its value bound to `x`, `next` the program after it. -/
def hostRead (s : State) (off width : Nat) (x : HostName) (next : Word → List HostOp) :
    Host.Outcome State Fault Refusal :=
  match memRead s off width with
  | .error f => raise f
  | .ok v => .next ((s.afterRead off).setHost (next v) (bindName s.names x v))

/-- A write of the notation (30 R79): one bus write of the expression's value. -/
def hostWrite (s : State) (off width : Nat) (e : HostExpr) (rest : List HostOp) : Host.Outcome State Fault Refusal :=
  match memWrite s off width (evalExpr s.names e) with
  | .next t => .next (t.setHost rest t.names)
  | .fault f => .fault f
  | .refused r => .refused r

/-- The host's own computation: its result binds a name. -/
def hostSet (s : State) (x : HostName) (e : HostExpr) (rest : List HostOp) : State :=
  s.setHost rest (bindName s.names x (evalExpr s.names e))

/-- The host's `if`: leaves out the next `n` operations when the expression is not 0. -/
def hostSkipIf (s : State) (e : HostExpr) (n : Nat) (rest : List HostOp) : State :=
  s.setHost (if evalExpr s.names e = 0#32 then rest else rest.drop n) s.names

/-- One turn of the host: the first operation of its program. A POLL stays at the head of the program until the status it
has read has bit 0 clear (30 R79, log 15). A host whose program is done has no step (60 R146, log 10). -/
def hostTurn (s : State) : Host.Outcome State Fault Refusal :=
  match s.prog with
  | [] => .next s
  | .read off width x :: rest => hostRead s off width x (fun _ => rest)
  | .write off width e :: rest => hostWrite s off width e rest
  | .poll x :: rest => hostRead s 0x0004 4 x (fun v => if v.getLsbD 0 then .poll x :: rest else rest)
  | .set x e :: rest => .next (hostSet s x e rest)
  | .skipIf e n :: rest => .next (hostSkipIf s e n rest)

end Sys2Proof.Machine
end

