-- ==== Sys2Proof/Machine/Agents.lean ====
section
/-! DEFINITION. The turns of the agents (00 R17, 20 R59): the engine's completion (30 R76), reset (70 R147), the environment's upset (20 R66), and the schedule that says whose turn is next (log 9). -/

namespace Sys2Proof.Machine

/-- Ends a completion (30 R76): PEND and BUSY are cleared after the Exec function; a fault leaves them as they were. -/
def finishCommand : Host.Outcome State Fault Refusal → Host.Outcome State Fault Refusal
  | .next t => .next t.clearPending
  | .fault f => .fault f
  | .refused r => .refused r

/-- `Complete()` (30 R76): runs the command in PEND and ends it, in one atomic step (20 R57). BUSY = 1 with PEND = none is no
state of the spec (10 R36); the pseudocode's case then has no arm, and the step only clears them (log 11). -/
def complete (s : State) : Host.Outcome State Fault Refusal :=
  match s.pend with
  | some i => finishCommand (exec i s)
  | none => .next s.clearPending

/-- The engine's turn (30 R76): the completion while BUSY = 1; "when BUSY = 0, the engine agent has no step" (log 10). -/
def engineTurn (s : State) : Host.Outcome State Fault Refusal :=
  if s.busy then complete s else .next s

/-- The environment's turn (20 R66, 92 D27): where UPSET_MODEL is single and BUSY = 0, one bit of a written word of DATA or of
the stored fingerprint flips; any other upset is no step (log 16). -/
def upsetTurn (s : State) (off bit : Nat) : State :=
  if s.cfg.upsetModel = .single ∧ s.busy = false ∧ off % 4 = 0 ∧ bit < 32 ∧
      (regionOf s.cfg off = .data ∨ regionOf s.cfg off = .fps) then
    { s with mem := s.mem.flipBit off bit }
  else s

/-- One turn of one agent. -/
def runTurn (t : Turn) (s : State) : Host.Outcome State Fault Refusal :=
  match t with
  | .host => hostTurn s
  | .engine => engineTurn s
  | .reset => .next s.applyReset
  | .upset off bit => .next (upsetTurn s off bit)

/-- Whose turn it is when the schedule names nobody: a command in flight is completed (30 R77, weak fairness), else the host
moves (log 9). -/
def State.defaultTurn (s : State) : Turn := if s.busy then .engine else .host

/-- The turn a step takes. -/
def State.nextTurn (s : State) : Turn :=
  match s.turns with
  | [] => s.defaultTurn
  | t :: _ => t

/-- The schedule with its first turn taken. -/
def State.dropTurn (s : State) : State := { s with turns := s.turns.tail }

/-- The machine set so that its next step is the completion of command `i`: `i` is in PEND, where a completion finds the
command it runs (10 R36, 30 R76; log 18). -/
def State.pendNow (s : State) (i : Instr) : State :=
  { s.setPending i with turns := .engine :: s.turns }

/-- The machine set so that its next step is the host's write of `w` to CMD while BUSY = 0 (30 R74). -/
def State.issueNow (s : State) (w : Word) : State :=
  { s with busy := false, pend := none, prog := .write 0x0000 4 (.const w) :: s.prog, turns := .host :: s.turns }

end Sys2Proof.Machine
end

