-- ==== Sys2Proof/Machine/Step.lean ====
section
/-! DEFINITION. One step of the machine: one turn of one agent (00 R17, 20 R59), and the host's way to place a command where the next step runs it. -/

namespace Sys2Proof.Machine

/-- One step: the agent whose turn is next takes it. -/
def step (s : State) : Host.Outcome State Fault Refusal := runTurn s.nextTurn s.dropTurn

/-- `s` set so that the very next step runs the command whose word has the bits `w` (log 18): a command the decoder reads is
put in PEND with the engine to move; a word it rejects is a CMD write for the host to make, which is refused (30 R70). -/
def State.withFetchWord (s : State) (nbits w : Nat) : State :=
  match decodeTableWord nbits w with
  | some i => s.pendNow i
  | none => s.issueNow (BitVec.ofNat 32 w)

end Sys2Proof.Machine
end

