-- ==== Sys2Proof/Safety.lean ====
section
/-! DEFINITION. The terms in which claims are stated: what the storage holds, a consistent block (10 R28), a quiescent and a final state (70 R162, 60 R146), a safe run, and the invariant of the machine. -/

namespace Sys2Proof.Machine

/-! ## What the storage holds -/

/-- Every DATA word is written (10 R39). -/
def State.DataWritten (s : State) : Prop := ∀ r < s.cfg.R, (s.mem.readWord (dataOff r)).isSome

/-- Every stored-fingerprint word is written (10 R39). -/
def State.StoredWritten (s : State) : Prop := ∀ k < s.cfg.fpWords, (s.mem.readWord (fpsOff k)).isSome

/-- `DATA[r]`, where it is written. -/
def State.dataRow (s : State) (r : Nat) : Word := (s.mem.readWord (dataOff r)).getD 0#32

/-- Stored fingerprint word `k`, where it is written (10 R30). -/
def State.storedFpWord (s : State) (k : Nat) : Word := (s.mem.readWord (fpsOff k)).getD 0#32

/-- Fresh fingerprint word `k`, where it is written (10 R30). -/
def State.freshFpWord (s : State) (k : Nat) : Word := (s.mem.readWord (fpfOff k)).getD 0#32

/-- DATA as an array, where it is written. -/
def State.dataOf (s : State) : List Word := (List.range s.cfg.R).map s.dataRow

/-- The stored fingerprint H, V, SD, BD, where it is written. -/
def State.storedOf (s : State) : Fingerprint :=
  Fingerprint.ofWords s.cfg.B ((List.range s.cfg.fpWords).map s.storedFpWord)

/-- The fingerprint of the current DATA (40 R96). -/
def State.fpOfData (s : State) : Fingerprint := freshFp s.cfg.B s.dataOf

/-- A block is consistent iff "its stored fingerprints equal ParityComputer's output on its current `data`" (10 R28). -/
def State.Consistent (s : State) : Prop :=
  s.DataWritten ∧ s.StoredWritten ∧ s.storedOf = s.fpOfData

/-- The block with the data bit at row `r`, bit `n` by weight, flipped: a single-event upset (20 R66, 30 R81). -/
def State.flipDataBit (s : State) (r n : Nat) : State := { s with mem := s.mem.flipBit (dataOff r) n }

/-- The block with bit `n` by weight of stored fingerprint word `k` flipped. -/
def State.flipStoredBit (s : State) (k n : Nat) : State := { s with mem := s.mem.flipBit (fpsOff k) n }

/-- The copy of all fresh words to the stored fingerprint: what a host's stamping leaves (70 R151). -/
def State.copyFresh (s : State) : State :=
  { s with mem := s.mem.writeWords (fpsOff 0) ((List.range s.cfg.fpWords).map s.freshFpWord) }

/-- The word all of whose bits are 0 but bit `n` by weight. -/
def oneBit (n : Nat) : Word := 1#32 <<< n

/-- `count` words, all 0 but word `i`, which is `w`. -/
def oneWord (count i : Nat) (w : Word) : List Word := (List.range count).map fun k => if k = i then w else 0#32

/-- The fingerprint bits of the one data bit `(r, c)`, one in each family (40 R101). -/
def singleBitSignature (B r c : Nat) : Fingerprint :=
  { h := oneWord B (r / 32) (oneBit (r % 32))
    v := oneBit (31 - c)
    sd := oneWord (B + 1) ((r + c) / 32) (oneBit (31 - (r + c) % 32))
    bd := oneWord (B + 1) ((r + 31 - c) / 32) (oneBit (31 - (r + 31 - c) % 32)) }

/-- How many data bits lie on line `d` of a family, in a block of `R` rows (40 R102). -/
def lineSize (R : Nat) (f : LineFamily) (d : Nat) : Nat :=
  ((allPairs R).filter fun p => f.lineOf p.1 p.2 == d).length

/-! ## Offsets, written out from the map (20 R46 to R49) -/

/-- An offset of a DATA word. -/
def isDataWord (c : Config) (off : Nat) : Prop := ∃ r < c.R, off = 0x1000 + 4 * r

/-- An offset of a stored-fingerprint word. -/
def isStoredWord (c : Config) (off : Nat) : Prop := ∃ k < c.fpWords, off = 0x2000 + 4 * k

/-- An offset of a fresh-fingerprint word. -/
def isFreshWord (c : Config) (off : Nat) : Prop := ∃ k < c.fpWords, off = 0x3000 + 4 * k

/-- An offset the host may read: STATUS, FLIPS, or a word of a window (20 R46 to R49). -/
def isReadOffset (c : Config) (off : Nat) : Prop :=
  off = 0x0004 ∨ off = 0x0008 ∨ isDataWord c off ∨ isStoredWord c off ∨ isFreshWord c off

/-- An offset the host may write: CMD, or a word of DATA or of the stored fingerprint (20 R46 to R48). -/
def isWriteOffset (c : Config) (off : Nat) : Prop := off = 0x0000 ∨ isDataWord c off ∨ isStoredWord c off

/-! ## Frames -/

/-- Every byte outside the offsets `lo .. hi - 1` reads as before. -/
def sameOutside (m m' : Memory) (lo hi : Nat) : Prop := ∀ a, a < lo ∨ hi ≤ a → m'.readByte a = m.readByte a

/-- The offset of the first byte past DATA, past the stored and past the fresh fingerprint. -/
def dataEnd (c : Config) : Nat := dataOff c.R
def fpsEnd (c : Config) : Nat := fpsOff c.fpWords
def fpfEnd (c : Config) : Nat := fpfOff c.fpWords

/-- A byte of the storage: of a DATA, a stored or a fresh word (20 R47 to R49). -/
def storageByte (c : Config) (a : Nat) : Prop :=
  (dataOff 0 ≤ a ∧ a < dataEnd c) ∨ (fpsOff 0 ≤ a ∧ a < fpsEnd c) ∨ (fpfOff 0 ≤ a ∧ a < fpfEnd c)

/-- The state with another ENGINE_BASE and BUS_BYTE_ORDER (00 R12, 20 R56). -/
def State.withPlatform (s : State) (base : Nat) (order : ByteOrder) : State :=
  { s with cfg := { s.cfg with engineBase := base, busByteOrder := order } }

/-- The state with another channel for diagnostic events and another trace (60 R139). -/
def State.withEvents (s : State) (channel : EventChannel) (trace : List DiagEvent) : State :=
  { s with cfg := { s.cfg with events := channel }, events := trace }

/-- An outcome with its next state changed. -/
def mapNext (f : State → State) : Host.Outcome State Fault Refusal → Host.Outcome State Fault Refusal
  | .next t => .next (f t)
  | .fault e => .fault e
  | .refused r => .refused r

/-! ## Runs -/

/-- `k` steps, stopping at the first fault or refusal. -/
def runSteps : Nat → State → Host.Outcome State Fault Refusal
  | 0, s => .next s
  | k + 1, s =>
    match step s with
    | .next t => runSteps k t
    | .fault f => .fault f
    | .refused r => .refused r

/-- "The engine is quiescent when STATUS.BUSY = 0" (70 R162). -/
def State.Quiescent (s : State) : Prop := s.busy = false

/-- A state that can end a run (60 R146): the host program is done, BUSY = 0, and neither mark is set. -/
def State.Final (s : State) : Prop :=
  s.prog = [] ∧ s.busy = false ∧ s.faultMark = none ∧ s.refusalMark = none

/-- The machine goes on for `k` steps from `s` without a fault or a refusal: what a claim about a run asks (60 R129, R131). -/
def safeFor (k : Nat) (s : State) : Prop := ∃ t, runSteps k s = .next t

/-! ## The invariant -/

/-- What holds of every state a run reaches: the storage is listed canonically, only where the window has storage, a whole
word at a time; the fresh words are all written or none is (10 R39); the unused slot of FSD[B] and FBD[B] is 0 (40 R103);
and PEND holds a command exactly while BUSY = 1 (10 R36). -/
structure State.Inv (s : State) : Prop where
  canonical : s.mem.wf
  onlyStorage : ∀ a, (s.mem.readByte a).isSome → storageByte s.cfg a
  wholeWords : ∀ off, off % 4 = 0 → ∀ j < 4, (s.mem.readByte (off + j)).isSome = (s.mem.readByte off).isSome
  freshTogether : ∀ k < s.cfg.fpWords, (s.mem.readWord (fpfOff k)).isSome = (s.mem.readWord (fpfOff 0)).isSome
  slashSlot : (s.freshFpWord (2 * s.cfg.B + 1)).getLsbD 0 = false
  backslashSlot : (s.freshFpWord (3 * s.cfg.B + 2)).getLsbD 0 = false
  pendingWhileBusy : s.busy = s.pend.isSome

end Sys2Proof.Machine
end

