-- ==== Sys2Proof/Certificates/Slice0/Obligations.lean ====
section
/-! DEFINITION. The statements for the provers, from the spec's numbered rules. None is about a program: those about pseudo-instructions hold from every state. -/

open Sys2Proof Sys2Proof.Machine

/-! ## Commands as words (30) -/

/-- 30 R68, R72: the decoder reads a command exactly from its full command word, as the table's rows do; every other word is
reserved. -/
def Obligations.DecoderSelectsExactlyTheTableWords : Prop :=
  encode .compute = 0x00000001#32 ∧ encode .check = 0x00000002#32 ∧ encode .repair = 0x00000003#32 ∧
  ∀ (w : Word) (i : Instr),
    (decode w = .ok i ↔ w = encode i) ∧
    (decode w = .ok i ↔ ∃ row ∈ opcodeTable, row.selects w = true ∧ row.instr = i) ∧
    (decode w = .error .reservedCommand ↔ rsvdField w ≠ 0#24 ∨ opField w ∉ [0x01#8, 0x02#8, 0x03#8])

/-- 30 R68: a few words, written out from the encoding. -/
def Obligations.SampleCommandWordsDecode : Prop :=
  decode 0b00000000000000000000000000000001#32 = .ok .compute ∧
  decode 0b00000000000000000000000000000010#32 = .ok .check ∧
  decode 0b00000000000000000000000000000011#32 = .ok .repair ∧
  decode 0b00000000000000000000000000000000#32 = .error .reservedCommand ∧
  decode 0b00000000000000000000000100000001#32 = .error .reservedCommand

/-- 30 R74, R75: what a write to CMD does, for every word, BUSY before decoding; a command in flight is not affected. -/
def Obligations.CommandWriteIssuesRefusesOrFaults : Prop :=
  ∀ (s : State) (w : Word),
    (s.busy = true → memWrite s 0x0000 4 w = .fault (.busyHazard 0x0000) ∧
      (settle s (memWrite s 0x0000 4 w)).pend = s.pend ∧ (settle s (memWrite s 0x0000 4 w)).busy = true) ∧
    (s.busy = false → ∀ i, decode w = .ok i → memWrite s 0x0000 4 w = .next { s with pend := some i, busy := true }) ∧
    (s.busy = false → decode w = .error .reservedCommand → memWrite s 0x0000 4 w = .refused .reservedCommand)

/-- 30 R70: a reserved word is refused, no state changes, and the refusal mark is set (a mark already set stays as it was
first recorded: log 8, the model's choice). -/
def Obligations.ReservedWordIsRefusedAndMarks : Prop :=
  ∀ (s : State) (w : Word), s.busy = false →
    (rsvdField w ≠ 0#24 ∨ (opField w ≠ 0x01#8 ∧ opField w ≠ 0x02#8 ∧ opField w ≠ 0x03#8)) →
    memWrite s 0x0000 4 w = .refused .reservedCommand ∧
    (settle s (memWrite s 0x0000 4 w)).refusalMark.isSome ∧
    { settle s (memWrite s 0x0000 4 w) with refusalMark := s.refusalMark } = s

/-! ## Issue, completion and the steps of the agents (30, 20) -/

/-- 30 R74, R76: the host's write of a command word is decoded into PEND, and the engine's next turn runs that command and
clears PEND and BUSY; a fault of the command is the step's fault and leaves BUSY and PEND as they were. That
an engine turn with BUSY = 0 passes is the model's choice (log 10), and so are a turn that the schedule names (log 9) and a
fault mark that keeps its first record (log 8). -/
def Obligations.StepIssuesThenRunsTheDecodedCommand : Prop :=
  (∀ (s : State) (w : Word) (i : Instr) (rest : List HostOp), decode w = .ok i → s.busy = false → s.nextTurn = .host →
      s.prog = .write 0x0000 4 (.const w) :: rest →
      step s = .next { s with turns := s.turns.tail, pend := some i, busy := true, prog := rest }) ∧
  (∀ (s : State) (i : Instr), s.busy = true → s.pend = some i → s.nextTurn = .engine →
      (∀ u, exec i { s with turns := s.turns.tail } = .next u → step s = .next { u with pend := none, busy := false }) ∧
      (∀ f, exec i { s with turns := s.turns.tail } = .fault f →
        step s = .fault f ∧ settle s (step s) = { s with faultMark := s.faultMark.or (some f) })) ∧
  (∀ s : State, s.busy = false → s.nextTurn = .engine → step s = .next { s with turns := s.turns.tail })

/-- 30 R77: whatever number of times the host polls first, the command in flight completes after them, with the results it
would have had at once. The schedule is the model's (log 9), and a POLL that reads once in each turn (log 15). -/
def Obligations.PollingNeverPreventsCompletion : Prop :=
  ∀ (s : State) (n : Nat) (x : HostName) (rest : List HostOp) (i : Instr),
    s.turns = List.replicate n .host → s.prog = .poll x :: rest → s.busy = true → s.pend = some i →
    s.DataWritten → (i ≠ .compute → s.StoredWritten) →
    ∃ u t, exec i s = .next u ∧ runSteps (n + 1) s = .next t ∧ t.busy = false ∧ t.pend = none ∧ t.mem = u.mem ∧
      t.valid = u.valid ∧ t.flips = u.flips ∧ t.prog = .poll x :: rest ∧ t.turns = []

/-- 10 R33: what sets and clears BUSY. -/
def Obligations.OnlyIssueCompletionAndResetChangeBusy : Prop :=
  ∀ s t : State, step s = .next t → t.busy ≠ s.busy →
    (s.nextTurn = .host ∧ s.busy = false ∧ ∃ e rest, s.prog = .write 0x0000 4 e :: rest) ∨
    (s.nextTurn = .engine ∧ s.busy = true) ∨ s.nextTurn = .reset

/-- 10 R34: only CHECK's completion and reset write VALID. -/
def Obligations.OnlyCheckAndResetChangeValid : Prop :=
  ∀ s t : State, step s = .next t → t.valid ≠ s.valid →
    (s.nextTurn = .engine ∧ s.busy = true ∧ s.pend = some .check) ∨ s.nextTurn = .reset

/-- 10 R35: only REPAIR's completion and reset write FLIPS. -/
def Obligations.OnlyRepairAndResetChangeFlips : Prop :=
  ∀ s t : State, step s = .next t → t.flips ≠ s.flips →
    (s.nextTurn = .engine ∧ s.busy = true ∧ s.pend = some .repair) ∨ s.nextTurn = .reset

/-- 10 R23: only a host write to the DATA window and REPAIR write DATA (reset and, where UPSET_MODEL admits them, upsets
apart). -/
def Obligations.OnlyHostWritesAndRepairChangeData : Prop :=
  ∀ s t : State, step s = .next t → ∀ a, dataOff 0 ≤ a → a < dataEnd s.cfg → t.mem.readByte a ≠ s.mem.readByte a →
    (s.nextTurn = .host ∧ s.busy = false ∧ ∃ off e rest, s.prog = .write off 4 e :: rest ∧ off ≤ a ∧ a < off + 4 ∧
      isDataWord s.cfg off) ∨
    (s.nextTurn = .engine ∧ s.busy = true ∧ s.pend = some .repair) ∨ s.nextTurn = .reset ∨
    (s.cfg.upsetModel = .single ∧ s.busy = false ∧ ∃ off bit, s.nextTurn = .upset off bit ∧ bit < 32 ∧ off ≤ a ∧
      a < off + 4 ∧ isDataWord s.cfg off)

/-- 10 R28: the engine never writes the stored fingerprint; host writes do (reset and upsets apart). -/
def Obligations.EngineNeverWritesTheStoredFingerprint : Prop :=
  ∀ s t : State, step s = .next t → ∀ a, fpsOff 0 ≤ a → a < fpsEnd s.cfg → t.mem.readByte a ≠ s.mem.readByte a →
    (s.nextTurn = .host ∧ s.busy = false ∧ ∃ off e rest, s.prog = .write off 4 e :: rest ∧ off ≤ a ∧ a < off + 4 ∧
      isStoredWord s.cfg off) ∨ s.nextTurn = .reset ∨
    (s.cfg.upsetModel = .single ∧ s.busy = false ∧ ∃ off bit, s.nextTurn = .upset off bit ∧ bit < 32 ∧ off ≤ a ∧
      a < off + 4 ∧ isStoredWord s.cfg off)

/-- 10 R29, R37: only COMPUTE's completion and reset change the fresh fingerprint. -/
def Obligations.OnlyComputeAndResetChangeTheFreshFingerprint : Prop :=
  ∀ s t : State, step s = .next t → ∀ a, fpfOff 0 ≤ a → a < fpfEnd s.cfg → t.mem.readByte a ≠ s.mem.readByte a →
    (s.nextTurn = .engine ∧ s.busy = true ∧ s.pend = some .compute) ∨ s.nextTurn = .reset

/-- 10 R40: once set, no step clears a mark, reset included; that it keeps what it first recorded is the model's choice (log
8). -/
def Obligations.MarksAreSticky : Prop :=
  ∀ s : State,
    (∀ f, s.faultMark = some f → (settle s (step s)).faultMark = some f) ∧
    (∀ r, s.refusalMark = some r → (settle s (step s)).refusalMark = some r)

/-- 60 R129, R131, R142, R143: a step that faults or is refused has no effect but its mark, which records the fault's kind and
offset where no mark was set before (log 8), and the state it leaves is not final (60 R146). The reason of a refusal, which its
mark records, is ReservedCommand. -/
def Obligations.AFaultedOrRefusedStepHasNoOtherEffect : Prop :=
  ∀ s : State,
    (∀ f, step s = .fault f → (settle s (step s)).faultMark.isSome ∧
      (s.faultMark = none → (settle s (step s)).faultMark = some f) ∧
      { settle s (step s) with faultMark := s.faultMark } = s ∧ ¬ (settle s (step s)).Final) ∧
    (∀ r, step s = .refused r → r = .reservedCommand ∧ (settle s (step s)).refusalMark = some .reservedCommand ∧
      { settle s (step s) with refusalMark := s.refusalMark } = s ∧ ¬ (settle s (step s)).Final)

/-- 20 R66, 92 D27: by default there is no spontaneous flip; with UPSET_MODEL = single, one bit of one written word of DATA or
of the stored fingerprint flips while BUSY = 0, and nothing else changes. That an upset the model does not admit passes, and one of an unwritten
word, is the model's choice (log 16). -/
def Obligations.UpsetsAreThoseTheModelAdmits : Prop :=
  ∀ (s : State) (off n : Nat), s.nextTurn = .upset off n →
    ((s.cfg.upsetModel = .none ∨ s.busy = true ∨ ¬ (isDataWord s.cfg off ∨ isStoredWord s.cfg off) ∨ 32 ≤ n ∨
      s.mem.readWord off = none) → step s = .next { s with turns := s.turns.tail }) ∧
    (s.cfg.upsetModel = .single → s.busy = false → (isDataWord s.cfg off ∨ isStoredWord s.cfg off) → n < 32 →
      ∀ w, s.mem.readWord off = some w →
        ∃ m, step s = .next { s with turns := s.turns.tail, mem := m } ∧
          m.readWord off = some (w ^^^ oneBit n) ∧ sameOutside s.mem m off (off + 4))

/-- The machine's invariant is kept by every step, from every state. -/
def Obligations.EveryStepKeepsTheInvariant : Prop :=
  ∀ s t : State, s.Inv → step s = .next t → t.Inv

/-- The invariant holds right after reset, for all parameters. -/
def Obligations.ResetStateMeetsTheInvariant : Prop := ∀ c : Config, (State.resetWith c).Inv

/-! ## Reset (10, 70) -/

/-- 10 R41, R42: the control state after reset, and that no word of the storage has a value. -/
def Obligations.ResetStateReadsAsTheSpecSays : Prop :=
  ∀ c : Config, let s := State.resetWith c
    memRead s 0x0004 4 = .ok 0x00000000#32 ∧ memRead s 0x0008 4 = .ok 0x00000000#32 ∧ s.busy = false ∧ s.valid = false ∧
    s.pend = none ∧
    ∀ off, isDataWord c off ∨ isStoredWord c off ∨ isFreshWord c off → memRead s off 4 = .error (.unwritten off)

/-- 70 R147, R148, R149: a reset step from any state, a command in flight or not. -/
def Obligations.ResetStepFromAnyState : Prop :=
  ∀ s : State, s.nextTurn = .reset → ∃ t, step s = .next t ∧ t.busy = false ∧ t.valid = false ∧ t.flips = 0#32 ∧
    t.pend = none ∧ t.cfg = s.cfg ∧ t.faultMark = s.faultMark ∧ t.refusalMark = s.refusalMark ∧
    memRead t 0x0004 4 = .ok 0x00000000#32 ∧
    ∀ off, isDataWord s.cfg off ∨ isStoredWord s.cfg off ∨ isFreshWord s.cfg off → memRead t off 4 = .error (.unwritten off)

/-! ## Host accesses (20, 60, 70) -/

/-- 20 R50, R51, R52, R55: a width other than 4, or an offset that the direction does not name, is a BadAccess, BUSY or not.
For an offset at or past 0x4000 this is the model's choice (log 12). -/
def Obligations.AccessOutsideTheMapIsBadAccess : Prop :=
  ∀ (s : State) (off width : Nat) (v : Word),
    (width ≠ 4 ∨ ¬ isReadOffset s.cfg off → memRead s off width = .error (.badAccess off)) ∧
    (width ≠ 4 ∨ ¬ isWriteOffset s.cfg off → memWrite s off width v = .fault (.badAccess off))

/-- 20 R53: what a read of a named offset returns. -/
def Obligations.ReadReturnsTheNamedWord : Prop :=
  ∀ (s : State) (off : Nat),
    (∃ w, memRead s 0x0004 4 = .ok w ∧ w.getLsbD 0 = s.busy ∧ (s.busy = false → w.getLsbD 1 = s.valid) ∧
      ∀ n, 2 ≤ n → w.getLsbD n = false) ∧
    (s.busy = true → isReadOffset s.cfg off → off ≠ 0x0004 → memRead s off 4 = .error (.busyHazard off)) ∧
    (s.busy = false → memRead s 0x0008 4 = .ok s.flips) ∧
    (s.busy = false → isDataWord s.cfg off ∨ isStoredWord s.cfg off ∨ isFreshWord s.cfg off →
      (∀ w, s.mem.readWord off = some w → memRead s off 4 = .ok w) ∧
      (s.mem.readWord off = none → memRead s off 4 = .error (.unwritten off)))

/-- 20 R54: a write of DATA or of the stored fingerprint stores the word, marks it written and changes nothing else; while
BUSY = 1 it is a BusyHazard. -/
def Obligations.WriteStoresOnlyTheAddressedWord : Prop :=
  ∀ (s : State) (off : Nat) (v : Word), isDataWord s.cfg off ∨ isStoredWord s.cfg off →
    (s.busy = true → memWrite s off 4 v = .fault (.busyHazard off)) ∧
    (s.busy = false → ∃ m, memWrite s off 4 v = .next { s with mem := m } ∧ m.readWord off = some v ∧
      sameOutside s.mem m off (off + 4) ∧ memRead { s with mem := m } off 4 = .ok v)

/-- 70 R152: while BUSY = 1 the host may only read STATUS. -/
def Obligations.WhileBusyOnlyStatusIsReadable : Prop :=
  ∀ (s : State) (off : Nat) (v : Word), s.busy = true →
    (∃ w, memRead s 0x0004 4 = .ok w ∧ w.getLsbD 0 = true) ∧
    (isReadOffset s.cfg off → off ≠ 0x0004 → memRead s off 4 = .error (.busyHazard off)) ∧
    (isWriteOffset s.cfg off → memWrite s off 4 v = .fault (.busyHazard off))

/-- 20 R58: a host read changes nothing of the engine, and while BUSY = 0 every read after it returns what it returned
before. -/
def Obligations.HostReadsHaveNoSideEffect : Prop :=
  ∀ (s t : State) (off width : Nat) (x : HostName) (rest : List HostOp),
    s.nextTurn = .host → s.prog = .read off width x :: rest → step s = .next t →
    t.mem = s.mem ∧ t.busy = s.busy ∧ t.valid = s.valid ∧ t.flips = s.flips ∧ t.pend = s.pend ∧
    (∃ v, memRead s off width = .ok v ∧ lookupName t.names x = some v) ∧
    (s.busy = false → ∀ off' width', memRead t off' width' = memRead s off' width')

/-- 00 R12, 20 R45: an access at ENGINE_BASE plus an offset of the window is the access at that offset; other addresses are
not the engine's (log 12, the model's choice). -/
def Obligations.WindowLiesAtTheEngineBase : Prop :=
  ∀ (s : State) (addr width : Nat) (v : Word),
    (∀ off < 0x4000, addr = s.cfg.engineBase + off →
      busRead s addr width = some (memRead s off width) ∧ busWrite s addr width v = some (memWrite s off width v)) ∧
    ((addr < s.cfg.engineBase ∨ s.cfg.engineBase + 0x4000 ≤ addr) →
      busRead s addr width = none ∧ busWrite s addr width v = none)

/-- 20 R56: no engine rule reads BUS_BYTE_ORDER, nor ENGINE_BASE: a step with other values is the same step. -/
def Obligations.StepsDoNotReadThePlatformParameters : Prop :=
  ∀ (s : State) (base : Nat) (order : ByteOrder),
    step (s.withPlatform base order) = mapNext (fun t => t.withPlatform base order) (step s)

/-! ## The pseudo-instructions, from every quiescent state (30)

The schedule is empty, so that the host moves while BUSY = 0 and the engine while BUSY = 1: the model's choice (log 9). -/

/-- 30 R80: RUN issues a command and waits for its completion. -/
def Obligations.RunIssuesAndWaits : Prop :=
  ∀ (s : State) (i : Instr) (x : HostName) (rest : List HostOp),
    s.turns = [] → s.busy = false → s.prog = runOps i x ++ rest → s.DataWritten →
    (i ≠ .compute → s.StoredWritten) →
    ∃ u t, exec i s = .next u ∧ runSteps 3 s = .next t ∧ t.mem = u.mem ∧ t.valid = u.valid ∧ t.flips = u.flips ∧
      t.busy = false ∧ t.pend = none ∧ t.prog = rest ∧ lookupName t.names x = some (statusWord u.valid false)

/-- 30 R81: FLIP flips the one data bit and leaves every other byte alone; FLIPFP does so in the stored fingerprint. -/
def Obligations.FlipFlipsOneBit : Prop :=
  ∀ (s : State) (n : Nat) (x : HostName) (rest : List HostOp) (w : Word), s.turns = [] → s.busy = false → n < 32 →
    (∀ r < s.cfg.R, s.prog = flipDataOps r n x ++ rest → s.mem.readWord (dataOff r) = some w →
      ∃ m, runSteps 2 s = .next { s with mem := m, prog := rest, names := bindName s.names x w } ∧
        m.readWord (dataOff r) = some (w ^^^ oneBit n) ∧ sameOutside s.mem m (dataOff r) (dataOff r + 4)) ∧
    (∀ k < s.cfg.fpWords, s.prog = flipFpOps k n x ++ rest → s.mem.readWord (fpsOff k) = some w →
      ∃ m, runSteps 2 s = .next { s with mem := m, prog := rest, names := bindName s.names x w } ∧
        m.readWord (fpsOff k) = some (w ^^^ oneBit n) ∧ sameOutside s.mem m (fpsOff k) (fpsOff k + 4))

/-- 30 R82: STAMP makes the block consistent, whatever the stored fingerprint held before. -/
def Obligations.StampMakesTheBlockConsistent : Prop :=
  ∀ (s : State) (x : HostName) (rest : List HostOp),
    s.turns = [] → s.busy = false → s.prog = stampOps s.cfg x ++ rest → s.DataWritten →
    ∃ t, runSteps (3 + 2 * s.cfg.fpWords) s = .next t ∧ t.Consistent ∧ t.dataOf = s.dataOf ∧ t.busy = false ∧
      t.prog = rest ∧ t.valid = s.valid ∧ t.flips = s.flips

/-- 30 R83: VERIFY runs one check and reads its verdict. -/
def Obligations.VerifyReadsTheVerdict : Prop :=
  ∀ (s : State) (x ok : HostName) (rest : List HostOp),
    s.turns = [] → s.busy = false → s.prog = verifyOps x ok ++ rest → s.DataWritten → s.StoredWritten →
    ∃ t, runSteps 5 s = .next t ∧ t.mem = s.mem ∧ t.flips = s.flips ∧ t.busy = false ∧ t.prog = rest ∧
      t.valid = decide (s.storedOf = s.fpOfData) ∧
      lookupName t.names ok = some (if s.storedOf = s.fpOfData then 1#32 else 0#32)

/-- 30 R84, 42 R120: the source's check, repair, re-check cycle on a consistent block in which one data bit has flipped. -/
def Obligations.ScrubCorrectsOneFlippedBit : Prop :=
  ∀ (s0 s : State) (r n : Nat) (x ok0 cnt ok1 : HostName) (rest : List HostOp),
    s0.Consistent → r < s0.cfg.R → n < 32 → s = s0.flipDataBit r n →
    s.turns = [] → s.busy = false → s.prog = scrubOps x ok0 cnt ok1 ++ rest → [x, ok0, cnt, ok1].Nodup →
    ∃ t, runSteps 16 s = .next t ∧ (∀ a, t.mem.readByte a = s0.mem.readByte a) ∧ t.flips = 1#32 ∧ t.valid = true ∧
      t.busy = false ∧ t.prog = rest ∧ lookupName t.names ok0 = some 0#32 ∧ lookupName t.names cnt = some 1#32 ∧
      lookupName t.names ok1 = some 1#32

/-- 30 R84: both branches of SCRUB on every written block: where the first check says valid, no REPAIR runs and the names are
(1, 0, 1); where it does not, they are 0, the repair's count and the verdict on the repaired block. -/
def Obligations.ScrubFollowsTheFirstVerdict : Prop :=
  ∀ (s : State) (x ok0 cnt ok1 : HostName) (rest : List HostOp),
    s.turns = [] → s.busy = false → s.prog = scrubOps x ok0 cnt ok1 ++ rest → [x, ok0, cnt, ok1].Nodup →
    s.DataWritten → s.StoredWritten →
    (s.storedOf = s.fpOfData → ∃ t, runSteps 8 s = .next t ∧ t.mem = s.mem ∧ t.flips = s.flips ∧ t.valid = true ∧
      t.busy = false ∧ t.prog = rest ∧ lookupName t.names ok0 = some 1#32 ∧ lookupName t.names cnt = some 0#32 ∧
      lookupName t.names ok1 = some 1#32) ∧
    (s.storedOf ≠ s.fpOfData → ∃ u t, exec .repair s = .next u ∧ runSteps 16 s = .next t ∧ t.mem = u.mem ∧
      t.flips = u.flips ∧ t.valid = decide (u.storedOf = u.fpOfData) ∧ t.busy = false ∧ t.prog = rest ∧
      lookupName t.names ok0 = some 0#32 ∧ lookupName t.names cnt = some u.flips ∧
      lookupName t.names ok1 = some (if u.storedOf = u.fpOfData then 1#32 else 0#32))

/-! ## The parity functions (40) -/

/-- 40 R95: the source's procedures give exactly the line fingerprint, for every `B` and every DATA. -/
def Obligations.ProceduresGiveTheLineFingerprint : Prop :=
  ∀ (B : Nat) (D : List Word), 1 ≤ B → D.length = 32 * B → procFp B D = freshFp B D

/-- 40 R91: the nibble table, and that the eight groups' parities give the parity of the whole word. -/
def Obligations.NibbleTableGivesRowParity : Prop :=
  (∀ x : BitVec 4, par4 x = decide (x.toNat ∈ [1, 2, 4, 7, 8, 11, 13, 14])) ∧ ∀ w : Word, nibbleParity w = parity32 w

/-- 40 R85: the line of each data bit in each family, one and only one; every line index has a bit, and the lines' parities
add up to the parity of all data bits. -/
def Obligations.LinesOfAFamilyPartitionTheBits : Prop :=
  ∀ (B : Nat) (D : List Word) (f : LineFamily), 1 ≤ B → D.length = 32 * B →
    (∀ r < 32 * B, ∀ c < 32, f.lineOf r c < f.lineCount B ∧
      f.lineOf r c = match f with | .row => r | .column => c | .slash => r + c | .backslash => r + 31 - c) ∧
    (f.lineCount B = match f with | .row => 32 * B | .column => 32 | .slash => 32 * B + 31 | .backslash => 32 * B + 31) ∧
    (∀ d < f.lineCount B, ∃ r < 32 * B, ∃ c < 32, f.lineOf r c = d) ∧
    xorBelow (f.lineCount B) (fun d => lineParity D f d) =
      xorBelow (32 * B) (fun r => xorBelow 32 (fun c => matrixBit D r c))

/-- 40 R86, R87, R90: what each bit of the fingerprint is, the unused slot of the diagonal families included; the rows and
columns as lines too (40 R85). -/
def Obligations.FingerprintBitsAreLineParities : Prop :=
  ∀ (B : Nat) (D : List Word), 1 ≤ B → D.length = 32 * B →
    ((hPar B D).length = B ∧ ∀ i < B, ∀ n < 32, ((hPar B D).getD i 0#32).getLsbD n = parity32 (rowWord D (32 * i + n)) ∧
      parity32 (rowWord D (32 * i + n)) = lineParity D .row (32 * i + n)) ∧
    (∀ n < 32, (vPar D).getLsbD n = xorBelow (32 * B) fun r => (rowWord D r).getLsbD n) ∧
    (∀ c < 32, (vPar D).getLsbD (31 - c) = lineParity D .column c) ∧
    ((sdPar B D).length = B + 1 ∧ ∀ i ≤ B, ∀ k < 32, msb ((sdPar B D).getD i 0#32) k =
      if 32 * i + k ≤ 32 * B + 30 then lineParity D .slash (32 * i + k) else false) ∧
    ((bdPar B D).length = B + 1 ∧ ∀ i ≤ B, ∀ k < 32, msb ((bdPar B D).getD i 0#32) k =
      if 32 * i + k ≤ 32 * B + 30 then lineParity D .backslash (32 * i + k) else false)

/-- 40 R100: the fingerprint is linear. -/
def Obligations.FingerprintIsLinear : Prop :=
  ∀ (B : Nat) (A X : List Word), A.length = 32 * B → X.length = 32 * B →
    freshFp B (List.zipWith (· ^^^ ·) A X) = (freshFp B A).xor (freshFp B X)

/-- 40 R101: flipping one data bit changes exactly four fingerprint bits, one in each family. -/
def Obligations.OneFlipChangesOneBitPerFamily : Prop :=
  ∀ (B : Nat) (D : List Word) (r c : Nat), D.length = 32 * B → r < 32 * B → c < 32 →
    freshFp B (flipPair D (r, c)) = (freshFp B D).xor (singleBitSignature B r c)

/-- 40 R102: how many bits each line holds, and the four lines of one bit. -/
def Obligations.LineSizesAreThoseOfTheMatrix : Prop :=
  ∀ B : Nat, 1 ≤ B → let R := 32 * B
    (∀ r < R, lineSize R .row r = 32) ∧ (∀ c < 32, lineSize R .column c = R) ∧
    (∀ d < R + 31, lineSize R .slash d = min (min d 31) (min (R - 1) (R + 30 - d)) + 1 ∧
      lineSize R .backslash d = min (min d 31) (min (R - 1) (R + 30 - d)) + 1) ∧
    ∀ r < R, ∀ c < 32,
      (LineFamily.slash.lineOf r c = 0 ↔ r = 0 ∧ c = 0) ∧
      (LineFamily.slash.lineOf r c = R + 30 ↔ r = R - 1 ∧ c = 31) ∧
      (LineFamily.backslash.lineOf r c = 0 ↔ r = 0 ∧ c = 31) ∧
      (LineFamily.backslash.lineOf r c = R + 30 ↔ r = R - 1 ∧ c = 0)

/-- 40 R103: the unused slot is 0 for every DATA, so a stored 1 there makes CHECK report invalid. -/
def Obligations.UnusedSlotIsZeroAndFailsCheck : Prop :=
  (∀ (B : Nat) (D : List Word), ((sdPar B D).getD B 0#32).getLsbD 0 = false ∧ ((bdPar B D).getD B 0#32).getLsbD 0 = false) ∧
  (∀ s : State, s.DataWritten → s.StoredWritten →
    ((s.storedFpWord (2 * s.cfg.B + 1)).getLsbD 0 = true ∨ (s.storedFpWord (3 * s.cfg.B + 2)).getLsbD 0 = true) →
    exec .check s = .next { s with valid := false })

/-! ## COMPUTE (40) -/

/-- 40 R97: COMPUTE exposes the fresh fingerprint of DATA in the fresh window, every word of it; an unwritten DATA word faults,
the lowest first. -/
def Obligations.ComputeExposesTheFingerprint : Prop :=
  ∀ s : State,
    (s.DataWritten → ∃ t, exec .compute s = .next t ∧ t.valid = s.valid ∧ t.flips = s.flips ∧
      ∀ k < s.cfg.fpWords, t.mem.readWord (fpfOff k) = some (s.fpOfData.words.getD k 0#32)) ∧
    (∀ r < s.cfg.R, (∀ q < r, (s.mem.readWord (dataOff q)).isSome) → s.mem.readWord (dataOff r) = none →
      exec .compute s = .fault (.unwritten (0x1000 + 4 * r)))

/-- 40 R98: COMPUTE writes only the fresh window, and its completion clears BUSY and PEND. -/
def Obligations.ComputeWritesOnlyTheFreshWindow : Prop :=
  ∀ s t : State,
    (exec .compute s = .next t →
      sameOutside s.mem t.mem (fpfOff 0) (fpfEnd s.cfg) ∧ t = { s with mem := t.mem }) ∧
    (s.busy = true → s.pend = some .compute → s.nextTurn = .engine → step s = .next t →
      sameOutside s.mem t.mem (fpfOff 0) (fpfEnd s.cfg) ∧
      t = { s with turns := s.turns.tail, mem := t.mem, pend := none, busy := false })

/-- 40 R99: a second COMPUTE with no DATA write between leaves the same fresh words, and in a canonical listing the same
state. -/
def Obligations.ComputeTwiceIsComputeOnce : Prop :=
  ∀ s t : State, s.mem.wf → exec .compute s = .next t → exec .compute t = .next t

/-! ## CHECK (41) -/

/-- 41 R105, R106, R107: CHECK sets VALID to whether every stored word is the fresh one, and nothing else; unwritten words
fault, DATA first, the lowest first; a second CHECK gives the same verdict. -/
def Obligations.CheckRecordsWhetherAllWordsAgree : Prop :=
  ∀ s : State,
    (s.DataWritten → s.StoredWritten → ∃ t,
      exec .check s = .next t ∧ exec .check t = .next t ∧
      t = { s with valid := decide (∀ k < s.cfg.fpWords, s.storedFpWord k = s.fpOfData.words.getD k 0#32) }) ∧
    (∀ r < s.cfg.R, (∀ q < r, (s.mem.readWord (dataOff q)).isSome) → s.mem.readWord (dataOff r) = none →
      exec .check s = .fault (.unwritten (0x1000 + 4 * r))) ∧
    (s.DataWritten → ∀ k < s.cfg.fpWords, (∀ q < k, (s.mem.readWord (fpsOff q)).isSome) →
      s.mem.readWord (fpsOff k) = none → exec .check s = .fault (.unwritten (0x2000 + 4 * k)))

/-- 41 R110: a block stamped with COMPUTE's result is valid. -/
def Obligations.StampedBlockChecksValid : Prop :=
  ∀ s : State, s.DataWritten → ∃ t, exec .compute s = .next t ∧
    exec .check t.copyFresh = .next { t.copyFresh with valid := true }

/-- 41 R111: any one flipped data bit of a consistent block makes CHECK report invalid. -/
def Obligations.EverySingleDataFlipIsDetected : Prop :=
  ∀ (s : State) (r n : Nat), s.Consistent → r < s.cfg.R → n < 32 →
    exec .check (s.flipDataBit r n) = .next { s.flipDataBit r n with valid := false }

/-- 41 R109, R112: any one flipped stored bit, of BD[B] too, makes CHECK report invalid. -/
def Obligations.EverySingleStoredFlipIsDetected : Prop :=
  ∀ (s : State) (k n : Nat), s.Consistent → k < s.cfg.fpWords → n < 32 →
    exec .check (s.flipStoredBit k n) = .next { s.flipStoredBit k n with valid := false }

/-- 91 N17: every odd number of flipped data bits is detected. -/
def Obligations.EveryOddNumberOfDataFlipsIsDetected : Prop :=
  ∀ s t : State, s.Consistent → t.cfg = s.cfg → t.DataWritten → t.StoredWritten → t.storedOf = s.storedOf →
    xorBelow s.cfg.R (fun r => parity32 (s.dataRow r ^^^ t.dataRow r)) = true →
    exec .check t = .next { t with valid := false }

/-! ## REPAIR (42) -/

/-- 42 R114 to R117: REPAIR completes, and flips exactly the data bits whose row, column, slash line and back-slash line all
mismatch, all judged from the DATA before it (42 R118). -/
def Obligations.RepairFlipsExactlyTheLocatedBits : Prop :=
  ∀ s : State, s.DataWritten → s.StoredWritten → ∃ t, exec .repair s = .next t ∧ t.DataWritten ∧
    ∀ i < s.cfg.R, ∀ j < 32,
      let rowMis := (s.storedOf.h.getD (i / 32) 0#32).getLsbD (i % 32) != parity32 (s.dataRow i)
      let colMis := s.storedOf.v.getLsbD (31 - j) != lineParity s.dataOf .column j
      let sdMis := (s.storedOf.sd.getD ((i + j) / 32) 0#32).getLsbD (31 - (i + j) % 32) != lineParity s.dataOf .slash (i + j)
      let bdMis := (s.storedOf.bd.getD ((i + 31 - j) / 32) 0#32).getLsbD (31 - (i + 31 - j) % 32) !=
        lineParity s.dataOf .backslash (i + 31 - j)
      matrixBit t.dataOf i j = xor (matrixBit s.dataOf i j) (rowMis && colMis && sdMis && bdMis)

/-- 42 R119: FLIPS is the number of data bits that changed, at most `32*R`. -/
def Obligations.FlipsCountsTheChangedBits : Prop :=
  ∀ s t : State, exec .repair s = .next t →
    t.flips.toNat = ((allPairs s.cfg.R).filter fun p => matrixBit s.dataOf p.1 p.2 != matrixBit t.dataOf p.1 p.2).length ∧
    t.flips.toNat ≤ 32 * s.cfg.R

/-- 42 R118: flips to distinct bits commute: the order in which pairs are visited does not matter. -/
def Obligations.OrderOfFlipsDoesNotMatter : Prop :=
  ∀ (D : List Word) (ps qs : List (Nat × Nat)), ps.Perm qs → applyFlips D ps = applyFlips D qs

/-- 42 R124: REPAIR writes only DATA and FLIPS (and the optional trace of 60 R139). -/
def Obligations.RepairWritesOnlyDataAndFlips : Prop :=
  ∀ s t : State, exec .repair s = .next t →
    sameOutside s.mem t.mem (dataOff 0) (dataEnd s.cfg) ∧
    t = { s with mem := t.mem, flips := t.flips, events := t.events }

/-- 42 R120: one flipped data bit is restored, FLIPS is 1, and a check after it is valid. -/
def Obligations.RepairCorrectsAnySingleFlip : Prop :=
  ∀ (s : State) (r n : Nat), s.Consistent → r < s.cfg.R → n < 32 →
    ∃ t, exec .repair (s.flipDataBit r n) = .next t ∧ (∀ a, t.mem.readByte a = s.mem.readByte a) ∧ t.flips = 1#32 ∧
      exec .check t = .next { t with valid := true }

/-- 42 R123: on a consistent block REPAIR changes no data and sets FLIPS to 0. -/
def Obligations.RepairLeavesAConsistentBlockAlone : Prop :=
  ∀ s : State, s.Consistent → ∃ t, exec .repair s = .next t ∧ t.flips = 0#32 ∧
    ∀ a, t.mem.readByte a = s.mem.readByte a

/-- 42 R122: where some family has no mismatch, as after a change to stored words of one family alone, REPAIR flips nothing
and a following CHECK reports the block as it is. -/
def Obligations.StoredCorruptionOfOneFamilyFlipsNothing : Prop :=
  ∀ s : State, s.DataWritten → s.StoredWritten →
    (s.storedOf.h = s.fpOfData.h ∨ s.storedOf.v = s.fpOfData.v ∨ s.storedOf.sd = s.fpOfData.sd ∨
      s.storedOf.bd = s.fpOfData.bd) →
    ∃ t, exec .repair s = .next t ∧ t.flips = 0#32 ∧ (∀ a, t.mem.readByte a = s.mem.readByte a) ∧
      exec .check t = .next { t with valid := decide (s.storedOf = s.fpOfData) }

/-- 60 R132, 42 R113: REPAIR faults on the lowest unwritten DATA word, then on the lowest unwritten stored word. -/
def Obligations.RepairFaultsOnTheLowestUnwrittenWord : Prop :=
  ∀ s : State,
    (∀ r < s.cfg.R, (∀ q < r, (s.mem.readWord (dataOff q)).isSome) → s.mem.readWord (dataOff r) = none →
      exec .repair s = .fault (.unwritten (0x1000 + 4 * r))) ∧
    (s.DataWritten → ∀ k < s.cfg.fpWords, (∀ q < k, (s.mem.readWord (fpsOff q)).isSome) →
      s.mem.readWord (fpsOff k) = none → exec .repair s = .fault (.unwritten (0x2000 + 4 * k)))

/-- 42 R125, 60 R139: the channel and the trace of diagnostic events change neither DATA nor FLIPS nor anything else. -/
def Obligations.DiagnosticEventsAffectNothing : Prop :=
  ∀ (i : Instr) (s : State) (channel : EventChannel) (trace : List DiagEvent),
    (∀ t, exec i s = .next t → ∃ trace', exec i (s.withEvents channel trace) = .next (t.withEvents channel trace')) ∧
    (∀ f, exec i s = .fault f → exec i (s.withEvents channel trace) = .fault f)
end

