-- ==== Sys2Proof/Laws/Bits.lean ====
section
/-! SUPPORT. The small lemmas of the bit operations: words from bits, MSB-first bits, reversal, and the XOR of a range. -/

namespace Sys2Proof.Machine

/-! ## Words from bits -/

theorem getLsbD_ofBitsBelow (f : Nat → Bool) {k : Nat} (hk : k ≤ 32) (n : Nat) :
    (ofBitsBelow f k).getLsbD n = (decide (n < k) && f n) := by
  induction k with
  | zero => simp [ofBitsBelow]
  | succ k ih =>
    rw [ofBitsBelow, BitVec.getLsbD_or, ih (by omega)]
    by_cases hn : n = k
    · subst hn
      cases f n <;> simp [show n < 32 by omega]
    · have h1 : (decide (n < k + 1)) = decide (n < k) := by
        congr 1; apply propext; omega
      rw [h1]
      cases f k <;> simp
      intro _ h
      omega

@[simp] theorem getLsbD_ofBits (f : Nat → Bool) (n : Nat) : (ofBits f).getLsbD n = (decide (n < 32) && f n) :=
  getLsbD_ofBitsBelow f (Nat.le_refl 32) n

@[simp] theorem getLsbD_ofBitsMsb (f : Nat → Bool) (n : Nat) :
    (ofBitsMsb f).getLsbD n = (decide (n < 32) && f (31 - n)) := by
  simp [ofBitsMsb]

theorem msb_ofBitsMsb (f : Nat → Bool) {k : Nat} (hk : k < 32) : msb (ofBitsMsb f) k = f k := by
  rw [msb, getLsbD_ofBitsMsb, show 31 - (31 - k) = k by omega]
  simp [show 31 - k < 32 by omega]

@[simp] theorem getLsbD_setmsb (w : Word) (k : Nat) (b : Bool) (n : Nat) :
    (setmsb w k b).getLsbD n = (decide (n < 32) && if n = 31 - k then b else w.getLsbD n) := by
  simp [setmsb]

@[simp] theorem getLsbD_rev32 (w : Word) (n : Nat) : (rev32 w).getLsbD n = (decide (n < 32) && w.getLsbD (31 - n)) := by
  simp [rev32]

@[simp] theorem getElem_ofBits (f : Nat → Bool) {n : Nat} (hn : n < 32) : (ofBits f)[n] = f n := by
  rw [← BitVec.getLsbD_eq_getElem, getLsbD_ofBits]; simp [hn]

@[simp] theorem getElem_ofBitsMsb (f : Nat → Bool) {n : Nat} (hn : n < 32) : (ofBitsMsb f)[n] = f (31 - n) := by
  rw [← BitVec.getLsbD_eq_getElem, getLsbD_ofBitsMsb]; simp [hn]

@[simp] theorem getElem_setmsb (w : Word) (k : Nat) (b : Bool) {n : Nat} (hn : n < 32) :
    (setmsb w k b)[n] = if n = 31 - k then b else w.getLsbD n := by
  rw [← BitVec.getLsbD_eq_getElem, getLsbD_setmsb]; simp [hn]

@[simp] theorem getElem_rev32 (w : Word) {n : Nat} (hn : n < 32) : (rev32 w)[n] = w.getLsbD (31 - n) := by
  rw [← BitVec.getLsbD_eq_getElem, getLsbD_rev32]; simp [hn]

/-- The one bit of `1 << k`. -/
theorem getLsbD_one_shiftLeft {k : Nat} (hk : k < 32) (n : Nat) : (1#32 <<< k).getLsbD n = decide (n = k) := by
  by_cases h : n = k
  · subst h; simp [hk]
  · simp [h]; omega

/-- Words whose bits below 32 agree are equal. -/
theorem word_ext {v w : Word} (h : ∀ n < 32, v.getLsbD n = w.getLsbD n) : v = w :=
  BitVec.eq_of_getLsbD_eq fun i hi => h i hi

/-! ## The XOR of a range -/

@[simp] theorem xorBelow_zero (f : Nat → Bool) : xorBelow 0 f = false := rfl

theorem xorBelow_succ (n : Nat) (f : Nat → Bool) : xorBelow (n + 1) f = xor (xorBelow n f) (f n) := rfl

theorem xorBelow_congr {n : Nat} {f g : Nat → Bool} (h : ∀ k < n, f k = g k) : xorBelow n f = xorBelow n g := by
  induction n with
  | zero => rfl
  | succ n ih => rw [xorBelow_succ, xorBelow_succ, ih fun k hk => h k (by omega), h n (by omega)]

theorem xorBelow_eq_false {n : Nat} {f : Nat → Bool} (h : ∀ k < n, f k = false) : xorBelow n f = false := by
  induction n with
  | zero => rfl
  | succ n ih => rw [xorBelow_succ, ih fun k hk => h k (by omega), h n (by omega)]; rfl

/-- XOR distributes over the range. -/
theorem xorBelow_xor (n : Nat) (f g : Nat → Bool) :
    xorBelow n (fun k => xor (f k) (g k)) = xor (xorBelow n f) (xorBelow n g) := by
  induction n with
  | zero => rfl
  | succ n ih =>
    simp only [xorBelow_succ, ih]
    cases xorBelow n f <;> cases xorBelow n g <;> cases f n <;> cases g n <;> rfl

/-- A range in which only one place can be set. -/
theorem xorBelow_single {n k : Nat} (f : Nat → Bool) (hk : k < n) (h : ∀ j < n, j ≠ k → f j = false) :
    xorBelow n f = f k := by
  induction n with
  | zero => omega
  | succ n ih =>
    rw [xorBelow_succ]
    by_cases hn : k = n
    · subst hn
      rw [xorBelow_eq_false fun j hj => h j (by omega) (by omega)]
      simp
    · rw [ih (by omega) fun j hj hjk => h j (by omega) hjk, h n (by omega) (fun e => hn e.symm)]
      simp

/-- The order of two ranges does not matter. -/
theorem xorBelow_comm (n m : Nat) (f : Nat → Nat → Bool) :
    xorBelow n (fun i => xorBelow m (fun j => f i j)) = xorBelow m (fun j => xorBelow n (fun i => f i j)) := by
  induction n with
  | zero => exact (xorBelow_eq_false fun _ _ => rfl).symm
  | succ n ih => simp only [xorBelow_succ, ih, xorBelow_xor]

/-- A constant that does not depend on the range's place comes out of the range. -/
theorem xorBelow_and (n : Nat) (b : Bool) (f : Nat → Bool) :
    xorBelow n (fun k => b && f k) = (b && xorBelow n f) := by
  cases b
  · exact xorBelow_eq_false fun _ _ => rfl
  · rfl

theorem parity32_xor (v w : Word) : parity32 (v ^^^ w) = xor (parity32 v) (parity32 w) := by
  rw [parity32, parity32, parity32, ← xorBelow_xor]
  exact xorBelow_congr fun k _ => BitVec.getLsbD_xor

theorem parity32_zero : parity32 0#32 = false := xorBelow_eq_false fun k _ => by simp

theorem xorBelow_succ_first (n : Nat) (f : Nat → Bool) :
    xorBelow (n + 1) f = xor (f 0) (xorBelow n fun k => f (k + 1)) := by
  induction n with
  | zero => simp [xorBelow]
  | succ n ih => rw [xorBelow_succ, ih, xorBelow_succ (n := n)]; simp

/-- A range in two parts. -/
theorem xorBelow_add (n m : Nat) (f : Nat → Bool) :
    xorBelow (n + m) f = xor (xorBelow n f) (xorBelow m fun k => f (n + k)) := by
  induction m with
  | zero => simp
  | succ m ih => rw [← Nat.add_assoc, xorBelow_succ, ih, xorBelow_succ]; simp

/-- The direction of a range does not matter. -/
theorem xorBelow_reverse (n : Nat) (f : Nat → Bool) : xorBelow n (fun k => f (n - 1 - k)) = xorBelow n f := by
  induction n generalizing f with
  | zero => rfl
  | succ n ih =>
    rw [xorBelow_succ_first, xorBelow_succ (f := f), Bool.xor_comm]
    have : xorBelow n (fun k => f (n + 1 - 1 - (k + 1))) = xorBelow n f := by
      rw [← ih f]; exact xorBelow_congr fun k hk => by rw [show n + 1 - 1 - (k + 1) = n - 1 - k by omega]
    rw [this]; rfl

end Sys2Proof.Machine
end

