-- ==== Sys2Proof/Laws/Fingerprint.lean ====
section
/-! SUPPORT. The shape of a fingerprint, its words in the window's order (10 R30), its bits, and when a verdict is true. -/

namespace Sys2Proof.Machine

/-- A fingerprint of the sizes that `B` fixes (00 R11). -/
structure Fingerprint.Sized (B : Nat) (f : Fingerprint) : Prop where
  h : f.h.length = B
  sd : f.sd.length = B + 1
  bd : f.bd.length = B + 1

theorem freshFp_sized (B : Nat) (D : List Word) : (freshFp B D).Sized B :=
  ⟨by simp [freshFp, hPar], by simp [freshFp, sdPar, diagPar], by simp [freshFp, bdPar, diagPar]⟩

theorem Fingerprint.length_words {B : Nat} {f : Fingerprint} (hf : f.Sized B) : f.words.length = 3 * B + 3 := by
  simp only [Fingerprint.words, List.length_append, List.length_cons, hf.h, hf.sd, hf.bd]; omega

theorem ofWords_sized {B : Nat} {ws : List Word} (h : ws.length = 3 * B + 3) : (Fingerprint.ofWords B ws).Sized B :=
  ⟨by simp [Fingerprint.ofWords]; omega, by simp [Fingerprint.ofWords]; omega, by simp [Fingerprint.ofWords]; omega⟩

/-! ## The words of the windows (10 R30) -/

theorem Fingerprint.words_h {B : Nat} {f : Fingerprint} (hf : f.Sized B) {k : Nat} (hk : k < B) :
    f.words.getD k 0#32 = f.h.getD k 0#32 := by
  have := hf.h
  rw [Fingerprint.words, List.getD_append _ _ _ _ (by omega)]

theorem Fingerprint.words_v {B : Nat} {f : Fingerprint} (hf : f.Sized B) : f.words.getD B 0#32 = f.v := by
  have := hf.h
  rw [Fingerprint.words, List.getD_append_right _ _ _ _ (by omega), this, Nat.sub_self, List.getD_cons_zero]

theorem Fingerprint.words_sd {B : Nat} {f : Fingerprint} (hf : f.Sized B) {k : Nat} (hk : k ≤ B) :
    f.words.getD (B + 1 + k) 0#32 = f.sd.getD k 0#32 := by
  have h1 := hf.h
  have h2 := hf.sd
  rw [Fingerprint.words, List.getD_append_right _ _ _ _ (by omega), h1, show B + 1 + k - B = k + 1 by omega,
    List.getD_cons_succ, List.getD_append _ _ _ _ (by omega)]

theorem Fingerprint.words_bd {B : Nat} {f : Fingerprint} (hf : f.Sized B) {k : Nat} (_hk : k ≤ B) :
    f.words.getD (2 * B + 2 + k) 0#32 = f.bd.getD k 0#32 := by
  have h1 := hf.h
  have h2 := hf.sd
  rw [Fingerprint.words, List.getD_append_right _ _ _ _ (by omega), h1,
    show 2 * B + 2 + k - B = (B + 1 + k) + 1 by omega, List.getD_cons_succ,
    List.getD_append_right _ _ _ _ (by omega), h2, show B + 1 + k - (B + 1) = k by omega]

/-- Lists of one length whose words agree are the same. -/
theorem wordList_ext {xs ys : List Word} (hl : xs.length = ys.length)
    (h : ∀ k < xs.length, xs.getD k 0#32 = ys.getD k 0#32) : xs = ys := by
  refine List.ext_getElem hl fun k h1 h2 => ?_
  have := h k h1
  rwa [List.getD_eq_getElem _ _ h1, List.getD_eq_getElem _ _ h2] at this

/-- Sized fingerprints with the same words are the same. -/
theorem Fingerprint.ext_words {B : Nat} {f g : Fingerprint} (hf : f.Sized B) (hg : g.Sized B)
    (h : ∀ k < 3 * B + 3, f.words.getD k 0#32 = g.words.getD k 0#32) : f = g := by
  have eh : f.h = g.h := wordList_ext (by rw [hf.h, hg.h]) fun k hk => by
    rw [hf.h] at hk; rw [← words_h hf hk, ← words_h hg hk, h k (by omega)]
  have ev : f.v = g.v := by rw [← words_v hf, ← words_v hg, h B (by omega)]
  have es : f.sd = g.sd := wordList_ext (by rw [hf.sd, hg.sd]) fun k hk => by
    rw [hf.sd] at hk; rw [← words_sd hf (by omega), ← words_sd hg (by omega), h _ (by omega)]
  have eb : f.bd = g.bd := wordList_ext (by rw [hf.bd, hg.bd]) fun k hk => by
    rw [hf.bd] at hk; rw [← words_bd hf (by omega), ← words_bd hg (by omega), h _ (by omega)]
  cases f; cases g; simp_all

/-- Reading a fingerprint from its words and listing them again gives the words. -/
theorem words_ofWords {B : Nat} {ws : List Word} (h : ws.length = 3 * B + 3) : (Fingerprint.ofWords B ws).words = ws := by
  have hs := ofWords_sized h
  refine wordList_ext (by rw [Fingerprint.length_words hs, h]) fun k hk => ?_
  rw [Fingerprint.length_words hs] at hk
  by_cases h1 : k < B
  · rw [Fingerprint.words_h hs h1]
    simp [Fingerprint.ofWords, List.getD_eq_getElem?_getD, h1]
  · by_cases h2 : k = B
    · subst h2; rw [Fingerprint.words_v hs]; rfl
    · by_cases h3 : k < 2 * B + 2
      · obtain ⟨j, rfl⟩ : ∃ j, k = B + 1 + j := ⟨k - (B + 1), by omega⟩
        rw [Fingerprint.words_sd hs (by omega)]
        simp [Fingerprint.ofWords, List.getD_eq_getElem?_getD, show j < B + 1 by omega]
      · obtain ⟨j, rfl⟩ : ∃ j, k = 2 * B + 2 + j := ⟨k - (2 * B + 2), by omega⟩
        rw [Fingerprint.words_bd hs (by omega)]
        simp [Fingerprint.ofWords, List.getD_eq_getElem?_getD, show j < B + 1 by omega]

theorem ofWords_words {B : Nat} {f : Fingerprint} (hf : f.Sized B) : Fingerprint.ofWords B f.words = f := by
  have hl := Fingerprint.length_words hf
  refine Fingerprint.ext_words (ofWords_sized hl) hf fun k _ => ?_
  rw [words_ofWords hl]

/-! ## The verdict (41 R105) -/

theorem verdict_iff (stored fresh : Fingerprint) : verdict stored fresh = true ↔ stored = fresh := by
  cases stored; cases fresh
  simp only [verdict, Bool.and_eq_true, beq_iff_eq, Fingerprint.mk.injEq]
  constructor
  · rintro ⟨⟨⟨h1, h2⟩, h3⟩, h4⟩; exact ⟨h1.symm, h2.symm, h3.symm, h4.symm⟩
  · rintro ⟨h1, h2, h3, h4⟩; exact ⟨⟨⟨h1.symm, h2.symm⟩, h3.symm⟩, h4.symm⟩

theorem verdict_eq_decide (stored fresh : Fingerprint) : verdict stored fresh = decide (stored = fresh) := by
  rw [Bool.eq_iff_iff, verdict_iff]; simp

/-! ## The bits of the fresh fingerprint (40 R86, R90) -/

theorem hPar_getD {B i : Nat} (D : List Word) (hi : i < B) :
    (hPar B D).getD i 0#32 = ofBits fun n => parity32 (rowWord D (32 * i + n)) := by
  simp [hPar, List.getD_eq_getElem?_getD, hi]

theorem diagPar_getD {B i : Nat} (D : List Word) (f : LineFamily) (hi : i ≤ B) :
    (diagPar B D f).getD i 0#32 =
      ofBitsMsb fun k => decide (32 * i + k < f.lineCount B) && lineParity D f (32 * i + k) := by
  simp [diagPar, List.getD_eq_getElem?_getD, show i < B + 1 by omega]

theorem sdPar_getD {B i : Nat} (D : List Word) (hi : i ≤ B) :
    (sdPar B D).getD i 0#32 = ofBitsMsb fun k => decide (32 * i + k < 32 * B + 31) && lineParity D .slash (32 * i + k) :=
  diagPar_getD D .slash hi

theorem bdPar_getD {B i : Nat} (D : List Word) (hi : i ≤ B) :
    (bdPar B D).getD i 0#32 =
      ofBitsMsb fun k => decide (32 * i + k < 32 * B + 31) && lineParity D .backslash (32 * i + k) :=
  diagPar_getD D .backslash hi

/-- Line `d` of a diagonal family at its place in the packed fingerprint (40 R90). -/
theorem msb_diagPar {B d : Nat} (D : List Word) {f : LineFamily} (hf : f = .slash ∨ f = .backslash)
    (hd : d < 32 * B + 31) : msb ((diagPar B D f).getD (d / 32) 0#32) (d % 32) = lineParity D f d := by
  rw [diagPar_getD D f (by omega), msb_ofBitsMsb _ (by omega), show 32 * (d / 32) + d % 32 = d by omega]
  rcases hf with rfl | rfl <;> simp [LineFamily.lineCount, hd]

/-- The running XOR, bit by bit (40 R87). -/
theorem getLsbD_vPar (D : List Word) (n : Nat) :
    (vPar D).getLsbD n = xorBelow D.length (fun r => (rowWord D r).getLsbD n) := by
  suffices h : ∀ (D E : List Word) (w : Word), w.getLsbD n = xorBelow E.length (fun r => (rowWord E r).getLsbD n) →
      (D.foldl (· ^^^ ·) w).getLsbD n =
        xorBelow (E.length + D.length) (fun r => (rowWord (E ++ D) r).getLsbD n) by
    simpa [vPar] using h D [] 0#32 (by simp)
  intro D
  induction D with
  | nil => intro E w hw; simpa using hw
  | cons d D ih =>
    intro E w hw
    have := ih (E ++ [d]) (w ^^^ d) (by
      rw [List.length_append, List.length_singleton, xorBelow_succ, BitVec.getLsbD_xor, hw]
      congr 1
      · exact xorBelow_congr fun k hk => by
          simp [rowWord, List.getD_eq_getElem?_getD, List.getElem?_append, hk]
      · simp [rowWord, List.getD_eq_getElem?_getD])
    rw [List.foldl_cons, this]
    simp only [List.append_assoc, List.singleton_append, List.length_append, List.length_cons, List.length_nil]
    congr 1
    omega

end Sys2Proof.Machine
end

