-- ==== Sys2Proof/Laws/Memory.lean ====
section
/-! SUPPORT. What the storage operations do: reads after writes, and that every operation keeps the canonical form. -/

namespace Sys2Proof.Machine

/-! ## Bytes -/

theorem readByte_writeByte_same (m : Memory) (a : Nat) (b : Byte) : (m.writeByte a b).readByte a = some b := by
  induction m with
  | nil => simp [Memory.writeByte, Memory.readByte]
  | cons c m ih =>
    obtain ⟨k, v⟩ := c
    by_cases h1 : a < k
    · simp [Memory.writeByte, Memory.readByte, h1]
    · by_cases h2 : a = k
      · simp [Memory.writeByte, Memory.readByte, h2]
      · simp [Memory.writeByte, Memory.readByte, h1, h2, Ne.symm h2, ih]

theorem readByte_writeByte_other (m : Memory) {a a' : Nat} (b : Byte) (h : a' ≠ a) :
    (m.writeByte a b).readByte a' = m.readByte a' := by
  induction m with
  | nil => simp [Memory.writeByte, Memory.readByte, Ne.symm h]
  | cons c m ih =>
    obtain ⟨k, v⟩ := c
    by_cases h1 : a < k
    · simp [Memory.writeByte, Memory.readByte, h1, Ne.symm h]
    · by_cases h2 : a = k
      · subst h2; simp [Memory.writeByte, Memory.readByte, Ne.symm h]
      · rw [Memory.writeByte, if_neg h1, if_neg h2, Memory.readByte, Memory.readByte, ih]

theorem readByte_writeByte (m : Memory) (a a' : Nat) (b : Byte) :
    (m.writeByte a b).readByte a' = if a' = a then some b else m.readByte a' := by
  split
  · next h => subst h; exact readByte_writeByte_same m _ b
  · next h => exact readByte_writeByte_other m b h

/-- A bound below every listed offset stays one after a write above it. -/
theorem lt_of_mem_writeByte {m : Memory} {a k : Nat} {b : Byte} (hk : k < a) (hm : ∀ c ∈ m, k < c.1) :
    ∀ c ∈ m.writeByte a b, k < c.1 := by
  induction m with
  | nil => simpa [Memory.writeByte] using hk
  | cons c m ih =>
    obtain ⟨k', v⟩ := c
    have hm' : ∀ c ∈ m, k < c.1 := fun c hc => hm c (List.mem_cons_of_mem _ hc)
    have hk' : k < k' := hm (k', v) (by simp)
    intro d hd
    unfold Memory.writeByte at hd
    split at hd
    · rcases List.mem_cons.1 hd with rfl | hd
      · exact hk
      · exact hm d hd
    · split at hd
      · rcases List.mem_cons.1 hd with rfl | hd
        · exact hk
        · exact hm' d hd
      · rcases List.mem_cons.1 hd with rfl | hd
        · exact hk'
        · exact ih hm' d hd

theorem wf_writeByte {m : Memory} (a : Nat) (b : Byte) (h : m.wf) : (m.writeByte a b).wf := by
  induction m with
  | nil => simp [Memory.writeByte, Memory.wf]
  | cons c m ih =>
    obtain ⟨k, v⟩ := c
    obtain ⟨h1, h2⟩ := List.pairwise_cons.1 h
    by_cases hlt : a < k
    · rw [Memory.writeByte, if_pos hlt]
      refine List.pairwise_cons.2 ⟨fun d hd => ?_, h⟩
      rcases List.mem_cons.1 hd with rfl | hd
      · exact hlt
      · exact hlt.trans (h1 d hd)
    · by_cases heq : a = k
      · rw [Memory.writeByte, if_neg hlt, if_pos heq]
        exact List.pairwise_cons.2 ⟨fun d hd => heq ▸ h1 d hd, h2⟩
      · rw [Memory.writeByte, if_neg hlt, if_neg heq]
        exact List.pairwise_cons.2 ⟨lt_of_mem_writeByte (by omega) h1, ih h2⟩

/-- An offset below every listed one is unlisted. -/
theorem readByte_none_of_lt {m : Memory} {a : Nat} (h : ∀ c ∈ m, a < c.1) : m.readByte a = none := by
  induction m with
  | nil => rfl
  | cons c m ih =>
    obtain ⟨k, v⟩ := c
    have hk : a < k := h (k, v) (by simp)
    rw [Memory.readByte, if_neg (by omega)]
    exact ih fun d hd => h d (List.mem_cons_of_mem _ hd)

/-- Canonical listings that read the same at every offset are the same listing. -/
theorem memory_ext {m m' : Memory} (h : m.wf) (h' : m'.wf) (e : ∀ a, m.readByte a = m'.readByte a) : m = m' := by
  induction m generalizing m' with
  | nil =>
    cases m' with
    | nil => rfl
    | cons c m' => have := e c.1; simp [Memory.readByte] at this
  | cons c m ih =>
    obtain ⟨k, v⟩ := c
    obtain ⟨h1, h2⟩ := List.pairwise_cons.1 h
    cases m' with
    | nil => have := e k; simp [Memory.readByte] at this
    | cons c' m' =>
      obtain ⟨k', v'⟩ := c'
      obtain ⟨h1', h2'⟩ := List.pairwise_cons.1 h'
      have hle : k' ≤ k := by
        by_contra hlt
        have hr := e k
        rw [readByte_none_of_lt (m := (k', v') :: m')] at hr
        · simp [Memory.readByte] at hr
        · intro d hd
          rcases List.mem_cons.1 hd with rfl | hd
          · simpa using hlt
          · exact lt_trans (by simpa using hlt) (h1' d hd)
      have hge : k ≤ k' := by
        by_contra hlt
        have hr := e k'
        rw [readByte_none_of_lt (m := (k, v) :: m)] at hr
        · simp [Memory.readByte] at hr
        · intro d hd
          rcases List.mem_cons.1 hd with rfl | hd
          · simpa using hlt
          · exact lt_trans (by simpa using hlt) (h1 d hd)
      obtain rfl : k = k' := by omega
      have hv : v = v' := by simpa [Memory.readByte] using e k
      subst hv
      congr 1
      refine ih h2 h2' fun a => ?_
      by_cases hak : k = a
      · subst hak
        rw [readByte_none_of_lt h1, readByte_none_of_lt h1']
      · simpa [Memory.readByte, hak] using e a

/-- Writing the byte an offset already holds changes nothing in a canonical listing. -/
theorem writeByte_eq_self {m : Memory} {a : Nat} {b : Byte} (h : m.wf) (hb : m.readByte a = some b) :
    m.writeByte a b = m :=
  memory_ext (wf_writeByte a b h) h fun a' => by
    rw [readByte_writeByte]; split
    · next e => rw [e, hb]
    · rfl

/-! ## Words -/

theorem getLsbD_byteOf (w : Word) (j : Nat) {i : Nat} (hi : i < 8) :
    (byteOf w j).getLsbD i = w.getLsbD (8 * j + i) := by
  rw [byteOf, BitVec.getLsbD_extractLsb']; simp [hi]

theorem getLsbD_wordOf (b0 b1 b2 b3 : Byte) (i : Nat) :
    (wordOf b0 b1 b2 b3).getLsbD i =
      if i < 8 then b0.getLsbD i else if i < 16 then b1.getLsbD (i - 8) else if i < 24 then b2.getLsbD (i - 16)
      else b3.getLsbD (i - 24) := by
  rw [wordOf]
  simp only [BitVec.getLsbD_append]
  by_cases h0 : i < 8
  · simp [h0]
  · by_cases h1 : i < 16
    · simp [h0, h1, show i - 8 < 8 by omega]
    · by_cases h2 : i < 24
      · simp [h0, h1, h2, show ¬ i - 8 < 8 by omega, show i - 8 - 8 = i - 16 by omega, show i - 16 < 8 by omega]
      · simp [h0, h1, h2, show ¬ i - 8 < 8 by omega, show ¬ i - 8 - 8 < 8 by omega,
          show i - 8 - 8 - 8 = i - 24 by omega]

theorem byteOf_wordOf (b0 b1 b2 b3 : Byte) :
    byteOf (wordOf b0 b1 b2 b3) 0 = b0 ∧ byteOf (wordOf b0 b1 b2 b3) 1 = b1 ∧
      byteOf (wordOf b0 b1 b2 b3) 2 = b2 ∧ byteOf (wordOf b0 b1 b2 b3) 3 = b3 := by
  refine ⟨?_, ?_, ?_, ?_⟩ <;>
  · apply BitVec.eq_of_getLsbD_eq
    intro i hi
    rw [getLsbD_byteOf _ _ hi, getLsbD_wordOf]
    split <;> (try split) <;> (try split) <;> first | omega | (congr 1; omega)

theorem wordOf_byteOf (w : Word) : wordOf (byteOf w 0) (byteOf w 1) (byteOf w 2) (byteOf w 3) = w := by
  apply BitVec.eq_of_getLsbD_eq
  intro i hi
  rw [getLsbD_wordOf]
  split <;> (try split) <;> (try split) <;> (rw [getLsbD_byteOf _ _ (by omega)]; congr 1; omega)

/-- What a word write leaves at every offset. -/
theorem readByte_writeWord (m : Memory) (off : Nat) (w : Word) (a : Nat) :
    (m.writeWord off w).readByte a =
      if off ≤ a ∧ a < off + 4 then some (byteOf w (a - off)) else m.readByte a := by
  simp only [Memory.writeWord, readByte_writeByte]
  by_cases h : off ≤ a ∧ a < off + 4
  · rw [if_pos h]
    obtain h0 | h0 | h0 | h0 : a = off ∨ a = off + 1 ∨ a = off + 2 ∨ a = off + 3 := by omega
    all_goals subst h0; simp
  · rw [if_neg h, if_neg (by omega), if_neg (by omega), if_neg (by omega), if_neg (by omega)]

theorem wf_writeWord {m : Memory} (off : Nat) (w : Word) (h : m.wf) : (m.writeWord off w).wf :=
  wf_writeByte _ _ (wf_writeByte _ _ (wf_writeByte _ _ (wf_writeByte _ _ h)))

/-- A word reads as `w` exactly when its four bytes are `w`'s. -/
theorem readWord_eq_some {m : Memory} {off : Nat} {w : Word} :
    m.readWord off = some w ↔ ∀ j < 4, m.readByte (off + j) = some (byteOf w j) := by
  constructor
  · intro h j hj
    unfold Memory.readWord at h
    split at h
    · next b0 b1 b2 b3 e0 e1 e2 e3 =>
      cases h
      obtain ⟨h0, h1, h2, h3⟩ := byteOf_wordOf b0 b1 b2 b3
      obtain rfl | rfl | rfl | rfl : j = 0 ∨ j = 1 ∨ j = 2 ∨ j = 3 := by omega
      · rw [h0]; exact e0
      · rw [h1]; exact e1
      · rw [h2]; exact e2
      · rw [h3]; exact e3
    · cases h
  · intro h
    have h0 := h 0 (by omega)
    have h1 := h 1 (by omega)
    have h2 := h 2 (by omega)
    have h3 := h 3 (by omega)
    simp only [Nat.add_zero] at h0
    simp only [Memory.readWord, h0, h1, h2, h3, wordOf_byteOf]

/-- A word is written exactly when its four bytes are listed (10 R39). -/
theorem readWord_isSome {m : Memory} {off : Nat} :
    (m.readWord off).isSome ↔ ∀ j < 4, (m.readByte (off + j)).isSome := by
  constructor
  · intro h j hj
    obtain ⟨w, hw⟩ := Option.isSome_iff_exists.1 h
    rw [readWord_eq_some.1 hw j hj]; rfl
  · intro h
    obtain ⟨b0, h0⟩ := Option.isSome_iff_exists.1 (h 0 (by omega))
    obtain ⟨b1, h1⟩ := Option.isSome_iff_exists.1 (h 1 (by omega))
    obtain ⟨b2, h2⟩ := Option.isSome_iff_exists.1 (h 2 (by omega))
    obtain ⟨b3, h3⟩ := Option.isSome_iff_exists.1 (h 3 (by omega))
    simp only [Nat.add_zero] at h0
    simp [Memory.readWord, h0, h1, h2, h3]

/-- Words whose bytes read the same are the same. -/
theorem readWord_congr {m m' : Memory} {off : Nat} (h : ∀ j < 4, m.readByte (off + j) = m'.readByte (off + j)) :
    m.readWord off = m'.readWord off := by
  have h0 := h 0 (by omega)
  simp only [Nat.add_zero] at h0
  simp only [Memory.readWord, h0, h 1 (by omega), h 2 (by omega), h 3 (by omega)]

theorem readWord_writeWord_same (m : Memory) (off : Nat) (w : Word) : (m.writeWord off w).readWord off = some w :=
  readWord_eq_some.2 fun j hj => by rw [readByte_writeWord, if_pos (by omega)]; simp

theorem readWord_writeWord_other (m : Memory) {off off' : Nat} (w : Word) (h : off' + 4 ≤ off ∨ off + 4 ≤ off') :
    (m.writeWord off w).readWord off' = m.readWord off' :=
  readWord_congr fun j hj => by rw [readByte_writeWord, if_neg (by omega)]

/-- Writing the word an offset already holds changes nothing in a canonical listing. -/
theorem writeWord_eq_self {m : Memory} {off : Nat} {w : Word} (h : m.wf) (hw : m.readWord off = some w) :
    m.writeWord off w = m :=
  memory_ext (wf_writeWord _ _ h) h fun a => by
    rw [readByte_writeWord]; split
    · next e =>
      have := readWord_eq_some.1 hw (a - off) (by omega)
      rw [show off + (a - off) = a by omega] at this
      exact this.symm
    · rfl

/-! ## Blocks of words -/

/-- What a block write leaves at every offset. -/
theorem readByte_writeWords (m : Memory) (off : Nat) (ws : List Word) (a : Nat) :
    (m.writeWords off ws).readByte a =
      if off ≤ a ∧ a < off + 4 * ws.length then some (byteOf (ws.getD ((a - off) / 4) 0#32) ((a - off) % 4))
      else m.readByte a := by
  induction ws generalizing m off with
  | nil => rw [if_neg (by simp only [List.length_nil]; omega)]; rfl
  | cons w ws ih =>
    rw [Memory.writeWords, ih, readByte_writeWord]
    simp only [List.length_cons]
    by_cases h1 : off + 4 ≤ a ∧ a < off + 4 + 4 * ws.length
    · rw [if_pos h1, if_pos (by omega)]
      have : (a - off) / 4 = (a - (off + 4)) / 4 + 1 := by omega
      rw [this, List.getD_cons_succ, show (a - (off + 4)) % 4 = (a - off) % 4 by omega]
    · rw [if_neg h1]
      by_cases h2 : off ≤ a ∧ a < off + 4
      · rw [if_pos h2, if_pos (by omega), show (a - off) / 4 = 0 by omega, List.getD_cons_zero,
          show (a - off) % 4 = a - off by omega]
      · rw [if_neg h2, if_neg (by omega)]

theorem wf_writeWords {m : Memory} (off : Nat) (ws : List Word) (h : m.wf) : (m.writeWords off ws).wf := by
  induction ws generalizing m off with
  | nil => exact h
  | cons w ws ih => exact ih (off + 4) (wf_writeWord off w h)

theorem readWord_writeWords_same (m : Memory) (off : Nat) (ws : List Word) {k : Nat} (hk : k < ws.length) :
    (m.writeWords off ws).readWord (off + 4 * k) = some (ws.getD k 0#32) :=
  readWord_eq_some.2 fun j hj => by
    rw [readByte_writeWords, if_pos (by omega), show (off + 4 * k + j - off) / 4 = k by omega,
      show (off + 4 * k + j - off) % 4 = j by omega]

theorem readWord_writeWords_other (m : Memory) (off : Nat) (ws : List Word) {off' : Nat}
    (h : off' + 4 ≤ off ∨ off + 4 * ws.length ≤ off') : (m.writeWords off ws).readWord off' = m.readWord off' :=
  readWord_congr fun j hj => by rw [readByte_writeWords, if_neg (by omega)]

/-- A block read that succeeds gives the words it read. -/
theorem readWords_ok {m : Memory} {off n : Nat} (h : ∀ k < n, (m.readWord (off + 4 * k)).isSome) :
    m.readWords off n = .ok ((List.range n).map fun k => (m.readWord (off + 4 * k)).getD 0#32) := by
  induction n generalizing off with
  | zero => rfl
  | succ n ih =>
    obtain ⟨w, hw⟩ := Option.isSome_iff_exists.1 (h 0 (by omega))
    rw [Nat.mul_zero, Nat.add_zero] at hw
    have ih' := ih (off := off + 4) fun k hk => by
      rw [show off + 4 + 4 * k = off + 4 * (k + 1) by omega]; exact h (k + 1) (by omega)
    rw [Memory.readWords, hw]
    simp only [ih']
    rw [List.range_succ_eq_map, List.map_cons, List.map_map]
    simp only [Nat.mul_zero, Nat.add_zero, hw, Option.getD_some]
    congr 3
    funext k
    simp only [Function.comp_apply]
    rw [show off + 4 * k.succ = off + 4 + 4 * k by omega]

/-- A block read reports the lowest word that is unwritten (60 R132). -/
theorem readWords_error {m : Memory} {off n k : Nat} (hk : k < n) (hw : ∀ q < k, (m.readWord (off + 4 * q)).isSome)
    (hu : m.readWord (off + 4 * k) = none) : m.readWords off n = .error (off + 4 * k) := by
  induction k generalizing off n with
  | zero =>
    obtain ⟨n, rfl⟩ : ∃ n', n = n' + 1 := ⟨n - 1, by omega⟩
    rw [Nat.mul_zero, Nat.add_zero] at hu
    simp only [Memory.readWords, hu, Nat.mul_zero, Nat.add_zero]
  | succ k ih =>
    obtain ⟨n, rfl⟩ : ∃ n', n = n' + 1 := ⟨n - 1, by omega⟩
    obtain ⟨w, h0⟩ := Option.isSome_iff_exists.1 (hw 0 (by omega))
    rw [Nat.mul_zero, Nat.add_zero] at h0
    have ih' := ih (off := off + 4) (n := n) (by omega)
      (fun q hq => by rw [show off + 4 + 4 * q = off + 4 * (q + 1) by omega]; exact hw (q + 1) (by omega))
      (by rw [show off + 4 + 4 * k = off + 4 * (k + 1) by omega]; exact hu)
    rw [Memory.readWords, h0]
    simp only [ih']
    rw [show off + 4 + 4 * k = off + 4 * (k + 1) by omega]

/-- A block read that succeeds found every word written. -/
theorem isSome_of_readWords_ok {m : Memory} {off n : Nat} {ws : List Word} (h : m.readWords off n = .ok ws) :
    ∀ k < n, (m.readWord (off + 4 * k)).isSome := by
  induction n generalizing off ws with
  | zero => intro k hk; omega
  | succ n ih =>
    rw [Memory.readWords] at h
    split at h
    · cases h
    · next w hw =>
      split at h
      · next ws' hws =>
        intro k hk
        cases k with
        | zero => simp [hw]
        | succ k =>
          have := ih hws k (by omega)
          rwa [show off + 4 + 4 * k = off + 4 * (k + 1) by omega] at this
      · cases h

theorem readWords_eq_ok {m : Memory} {off n : Nat} {ws : List Word} :
    m.readWords off n = .ok ws ↔ (∀ k < n, (m.readWord (off + 4 * k)).isSome) ∧
      ws = (List.range n).map fun k => (m.readWord (off + 4 * k)).getD 0#32 := by
  constructor
  · intro h
    have hs := isSome_of_readWords_ok h
    exact ⟨hs, by rw [readWords_ok hs] at h; exact (Except.ok.inj h).symm⟩
  · rintro ⟨hs, rfl⟩
    exact readWords_ok hs

/-! ## One flipped bit -/

theorem wf_flipBit {m : Memory} (off n : Nat) (h : m.wf) : (m.flipBit off n).wf := by
  unfold Memory.flipBit
  split
  · exact wf_writeWord _ _ h
  · exact h

theorem readWord_flipBit_same (m : Memory) (off n : Nat) :
    (m.flipBit off n).readWord off = (m.readWord off).map (· ^^^ (1#32 <<< n)) := by
  unfold Memory.flipBit
  split
  · next w h => rw [readWord_writeWord_same, h]; rfl
  · next h => rw [h]; rfl

theorem readByte_flipBit_other (m : Memory) {off a : Nat} (n : Nat) (h : a < off ∨ off + 4 ≤ a) :
    (m.flipBit off n).readByte a = m.readByte a := by
  unfold Memory.flipBit
  split
  · rw [readByte_writeWord, if_neg (by omega)]
  · rfl

theorem readWord_flipBit_other (m : Memory) {off off' : Nat} (n : Nat) (h : off' + 4 ≤ off ∨ off + 4 ≤ off') :
    (m.flipBit off n).readWord off' = m.readWord off' :=
  readWord_congr fun j hj => readByte_flipBit_other m n (by omega)

/-- A flip lists and unlists nothing: the write marks stay (10 R39). -/
theorem isSome_readByte_flipBit (m : Memory) (off n a : Nat) :
    ((m.flipBit off n).readByte a).isSome = (m.readByte a).isSome := by
  unfold Memory.flipBit
  split
  · next w h =>
    rw [readByte_writeWord]
    split
    · next e =>
      have := readWord_eq_some.1 h (a - off) (by omega)
      rw [show off + (a - off) = a by omega] at this
      simp [this]
    · rfl
  · rfl

end Sys2Proof.Machine
end

