-- ==== Sys2Proof/Laws/State.lean ====
section
/-! SUPPORT. What each named update of State leaves in each field, so that no proof unfolds a record update. -/

namespace Sys2Proof.Machine

/-! ## setPending -/

@[simp] theorem State.setPending_cfg (s : State) (i : Instr) : (s.setPending i).cfg = s.cfg := rfl
@[simp] theorem State.setPending_mem (s : State) (i : Instr) : (s.setPending i).mem = s.mem := rfl
@[simp] theorem State.setPending_busy (s : State) (i : Instr) : (s.setPending i).busy = true := rfl
@[simp] theorem State.setPending_valid (s : State) (i : Instr) : (s.setPending i).valid = s.valid := rfl
@[simp] theorem State.setPending_flips (s : State) (i : Instr) : (s.setPending i).flips = s.flips := rfl
@[simp] theorem State.setPending_pend (s : State) (i : Instr) : (s.setPending i).pend = some i := rfl
@[simp] theorem State.setPending_faultMark (s : State) (i : Instr) : (s.setPending i).faultMark = s.faultMark := rfl
@[simp] theorem State.setPending_refusalMark (s : State) (i : Instr) : (s.setPending i).refusalMark = s.refusalMark := rfl
@[simp] theorem State.setPending_draws (s : State) (i : Instr) : (s.setPending i).draws = s.draws := rfl
@[simp] theorem State.setPending_turns (s : State) (i : Instr) : (s.setPending i).turns = s.turns := rfl
@[simp] theorem State.setPending_prog (s : State) (i : Instr) : (s.setPending i).prog = s.prog := rfl
@[simp] theorem State.setPending_names (s : State) (i : Instr) : (s.setPending i).names = s.names := rfl
@[simp] theorem State.setPending_events (s : State) (i : Instr) : (s.setPending i).events = s.events := rfl

/-! ## clearPending -/

@[simp] theorem State.clearPending_cfg (s : State) : s.clearPending.cfg = s.cfg := rfl
@[simp] theorem State.clearPending_mem (s : State) : s.clearPending.mem = s.mem := rfl
@[simp] theorem State.clearPending_busy (s : State) : s.clearPending.busy = false := rfl
@[simp] theorem State.clearPending_valid (s : State) : s.clearPending.valid = s.valid := rfl
@[simp] theorem State.clearPending_flips (s : State) : s.clearPending.flips = s.flips := rfl
@[simp] theorem State.clearPending_pend (s : State) : s.clearPending.pend = none := rfl
@[simp] theorem State.clearPending_faultMark (s : State) : s.clearPending.faultMark = s.faultMark := rfl
@[simp] theorem State.clearPending_refusalMark (s : State) : s.clearPending.refusalMark = s.refusalMark := rfl
@[simp] theorem State.clearPending_draws (s : State) : s.clearPending.draws = s.draws := rfl
@[simp] theorem State.clearPending_turns (s : State) : s.clearPending.turns = s.turns := rfl
@[simp] theorem State.clearPending_prog (s : State) : s.clearPending.prog = s.prog := rfl
@[simp] theorem State.clearPending_names (s : State) : s.clearPending.names = s.names := rfl
@[simp] theorem State.clearPending_events (s : State) : s.clearPending.events = s.events := rfl

/-! ## setValid -/

@[simp] theorem State.setValid_cfg (s : State) (b : Bool) : (s.setValid b).cfg = s.cfg := rfl
@[simp] theorem State.setValid_mem (s : State) (b : Bool) : (s.setValid b).mem = s.mem := rfl
@[simp] theorem State.setValid_busy (s : State) (b : Bool) : (s.setValid b).busy = s.busy := rfl
@[simp] theorem State.setValid_valid (s : State) (b : Bool) : (s.setValid b).valid = b := rfl
@[simp] theorem State.setValid_flips (s : State) (b : Bool) : (s.setValid b).flips = s.flips := rfl
@[simp] theorem State.setValid_pend (s : State) (b : Bool) : (s.setValid b).pend = s.pend := rfl
@[simp] theorem State.setValid_faultMark (s : State) (b : Bool) : (s.setValid b).faultMark = s.faultMark := rfl
@[simp] theorem State.setValid_refusalMark (s : State) (b : Bool) : (s.setValid b).refusalMark = s.refusalMark := rfl
@[simp] theorem State.setValid_draws (s : State) (b : Bool) : (s.setValid b).draws = s.draws := rfl
@[simp] theorem State.setValid_turns (s : State) (b : Bool) : (s.setValid b).turns = s.turns := rfl
@[simp] theorem State.setValid_prog (s : State) (b : Bool) : (s.setValid b).prog = s.prog := rfl
@[simp] theorem State.setValid_names (s : State) (b : Bool) : (s.setValid b).names = s.names := rfl
@[simp] theorem State.setValid_events (s : State) (b : Bool) : (s.setValid b).events = s.events := rfl

/-! ## setFlips -/

@[simp] theorem State.setFlips_cfg (s : State) (n : Nat) : (s.setFlips n).cfg = s.cfg := rfl
@[simp] theorem State.setFlips_mem (s : State) (n : Nat) : (s.setFlips n).mem = s.mem := rfl
@[simp] theorem State.setFlips_busy (s : State) (n : Nat) : (s.setFlips n).busy = s.busy := rfl
@[simp] theorem State.setFlips_valid (s : State) (n : Nat) : (s.setFlips n).valid = s.valid := rfl
@[simp] theorem State.setFlips_flips (s : State) (n : Nat) : (s.setFlips n).flips = BitVec.ofNat 32 n := rfl
@[simp] theorem State.setFlips_pend (s : State) (n : Nat) : (s.setFlips n).pend = s.pend := rfl
@[simp] theorem State.setFlips_faultMark (s : State) (n : Nat) : (s.setFlips n).faultMark = s.faultMark := rfl
@[simp] theorem State.setFlips_refusalMark (s : State) (n : Nat) : (s.setFlips n).refusalMark = s.refusalMark := rfl
@[simp] theorem State.setFlips_draws (s : State) (n : Nat) : (s.setFlips n).draws = s.draws := rfl
@[simp] theorem State.setFlips_turns (s : State) (n : Nat) : (s.setFlips n).turns = s.turns := rfl
@[simp] theorem State.setFlips_prog (s : State) (n : Nat) : (s.setFlips n).prog = s.prog := rfl
@[simp] theorem State.setFlips_names (s : State) (n : Nat) : (s.setFlips n).names = s.names := rfl
@[simp] theorem State.setFlips_events (s : State) (n : Nat) : (s.setFlips n).events = s.events := rfl

/-! ## writeFresh -/

@[simp] theorem State.writeFresh_cfg (s : State) (f : Fingerprint) : (s.writeFresh f).cfg = s.cfg := rfl
@[simp] theorem State.writeFresh_mem (s : State) (f : Fingerprint) : (s.writeFresh f).mem = s.mem.writeWords (fpfOff 0) f.words := rfl
@[simp] theorem State.writeFresh_busy (s : State) (f : Fingerprint) : (s.writeFresh f).busy = s.busy := rfl
@[simp] theorem State.writeFresh_valid (s : State) (f : Fingerprint) : (s.writeFresh f).valid = s.valid := rfl
@[simp] theorem State.writeFresh_flips (s : State) (f : Fingerprint) : (s.writeFresh f).flips = s.flips := rfl
@[simp] theorem State.writeFresh_pend (s : State) (f : Fingerprint) : (s.writeFresh f).pend = s.pend := rfl
@[simp] theorem State.writeFresh_faultMark (s : State) (f : Fingerprint) : (s.writeFresh f).faultMark = s.faultMark := rfl
@[simp] theorem State.writeFresh_refusalMark (s : State) (f : Fingerprint) : (s.writeFresh f).refusalMark = s.refusalMark := rfl
@[simp] theorem State.writeFresh_draws (s : State) (f : Fingerprint) : (s.writeFresh f).draws = s.draws := rfl
@[simp] theorem State.writeFresh_turns (s : State) (f : Fingerprint) : (s.writeFresh f).turns = s.turns := rfl
@[simp] theorem State.writeFresh_prog (s : State) (f : Fingerprint) : (s.writeFresh f).prog = s.prog := rfl
@[simp] theorem State.writeFresh_names (s : State) (f : Fingerprint) : (s.writeFresh f).names = s.names := rfl
@[simp] theorem State.writeFresh_events (s : State) (f : Fingerprint) : (s.writeFresh f).events = s.events := rfl

/-! ## writeData -/

@[simp] theorem State.writeData_cfg (s : State) (D : List Word) : (s.writeData D).cfg = s.cfg := rfl
@[simp] theorem State.writeData_mem (s : State) (D : List Word) : (s.writeData D).mem = s.mem.writeWords (dataOff 0) D := rfl
@[simp] theorem State.writeData_busy (s : State) (D : List Word) : (s.writeData D).busy = s.busy := rfl
@[simp] theorem State.writeData_valid (s : State) (D : List Word) : (s.writeData D).valid = s.valid := rfl
@[simp] theorem State.writeData_flips (s : State) (D : List Word) : (s.writeData D).flips = s.flips := rfl
@[simp] theorem State.writeData_pend (s : State) (D : List Word) : (s.writeData D).pend = s.pend := rfl
@[simp] theorem State.writeData_faultMark (s : State) (D : List Word) : (s.writeData D).faultMark = s.faultMark := rfl
@[simp] theorem State.writeData_refusalMark (s : State) (D : List Word) : (s.writeData D).refusalMark = s.refusalMark := rfl
@[simp] theorem State.writeData_draws (s : State) (D : List Word) : (s.writeData D).draws = s.draws := rfl
@[simp] theorem State.writeData_turns (s : State) (D : List Word) : (s.writeData D).turns = s.turns := rfl
@[simp] theorem State.writeData_prog (s : State) (D : List Word) : (s.writeData D).prog = s.prog := rfl
@[simp] theorem State.writeData_names (s : State) (D : List Word) : (s.writeData D).names = s.names := rfl
@[simp] theorem State.writeData_events (s : State) (D : List Word) : (s.writeData D).events = s.events := rfl

/-! ## writeStorage -/

@[simp] theorem State.writeStorage_cfg (s : State) (off : Nat) (w : Word) : (s.writeStorage off w).cfg = s.cfg := rfl
@[simp] theorem State.writeStorage_mem (s : State) (off : Nat) (w : Word) : (s.writeStorage off w).mem = s.mem.writeWord off w := rfl
@[simp] theorem State.writeStorage_busy (s : State) (off : Nat) (w : Word) : (s.writeStorage off w).busy = s.busy := rfl
@[simp] theorem State.writeStorage_valid (s : State) (off : Nat) (w : Word) : (s.writeStorage off w).valid = s.valid := rfl
@[simp] theorem State.writeStorage_flips (s : State) (off : Nat) (w : Word) : (s.writeStorage off w).flips = s.flips := rfl
@[simp] theorem State.writeStorage_pend (s : State) (off : Nat) (w : Word) : (s.writeStorage off w).pend = s.pend := rfl
@[simp] theorem State.writeStorage_faultMark (s : State) (off : Nat) (w : Word) : (s.writeStorage off w).faultMark = s.faultMark := rfl
@[simp] theorem State.writeStorage_refusalMark (s : State) (off : Nat) (w : Word) : (s.writeStorage off w).refusalMark = s.refusalMark := rfl
@[simp] theorem State.writeStorage_draws (s : State) (off : Nat) (w : Word) : (s.writeStorage off w).draws = s.draws := rfl
@[simp] theorem State.writeStorage_turns (s : State) (off : Nat) (w : Word) : (s.writeStorage off w).turns = s.turns := rfl
@[simp] theorem State.writeStorage_prog (s : State) (off : Nat) (w : Word) : (s.writeStorage off w).prog = s.prog := rfl
@[simp] theorem State.writeStorage_names (s : State) (off : Nat) (w : Word) : (s.writeStorage off w).names = s.names := rfl
@[simp] theorem State.writeStorage_events (s : State) (off : Nat) (w : Word) : (s.writeStorage off w).events = s.events := rfl

/-! ## setHost -/

@[simp] theorem State.setHost_cfg (s : State) (p : List HostOp) (ns : List (HostName × Word)) : (s.setHost p ns).cfg = s.cfg := rfl
@[simp] theorem State.setHost_mem (s : State) (p : List HostOp) (ns : List (HostName × Word)) : (s.setHost p ns).mem = s.mem := rfl
@[simp] theorem State.setHost_busy (s : State) (p : List HostOp) (ns : List (HostName × Word)) : (s.setHost p ns).busy = s.busy := rfl
@[simp] theorem State.setHost_valid (s : State) (p : List HostOp) (ns : List (HostName × Word)) : (s.setHost p ns).valid = s.valid := rfl
@[simp] theorem State.setHost_flips (s : State) (p : List HostOp) (ns : List (HostName × Word)) : (s.setHost p ns).flips = s.flips := rfl
@[simp] theorem State.setHost_pend (s : State) (p : List HostOp) (ns : List (HostName × Word)) : (s.setHost p ns).pend = s.pend := rfl
@[simp] theorem State.setHost_faultMark (s : State) (p : List HostOp) (ns : List (HostName × Word)) : (s.setHost p ns).faultMark = s.faultMark := rfl
@[simp] theorem State.setHost_refusalMark (s : State) (p : List HostOp) (ns : List (HostName × Word)) : (s.setHost p ns).refusalMark = s.refusalMark := rfl
@[simp] theorem State.setHost_draws (s : State) (p : List HostOp) (ns : List (HostName × Word)) : (s.setHost p ns).draws = s.draws := rfl
@[simp] theorem State.setHost_turns (s : State) (p : List HostOp) (ns : List (HostName × Word)) : (s.setHost p ns).turns = s.turns := rfl
@[simp] theorem State.setHost_prog (s : State) (p : List HostOp) (ns : List (HostName × Word)) : (s.setHost p ns).prog = p := rfl
@[simp] theorem State.setHost_names (s : State) (p : List HostOp) (ns : List (HostName × Word)) : (s.setHost p ns).names = ns := rfl
@[simp] theorem State.setHost_events (s : State) (p : List HostOp) (ns : List (HostName × Word)) : (s.setHost p ns).events = s.events := rfl

/-! ## applyReset -/

@[simp] theorem State.applyReset_cfg (s : State) : s.applyReset.cfg = s.cfg := rfl
@[simp] theorem State.applyReset_mem (s : State) : s.applyReset.mem = [] := rfl
@[simp] theorem State.applyReset_busy (s : State) : s.applyReset.busy = false := rfl
@[simp] theorem State.applyReset_valid (s : State) : s.applyReset.valid = false := rfl
@[simp] theorem State.applyReset_flips (s : State) : s.applyReset.flips = 0#32 := rfl
@[simp] theorem State.applyReset_pend (s : State) : s.applyReset.pend = none := rfl
@[simp] theorem State.applyReset_faultMark (s : State) : s.applyReset.faultMark = s.faultMark := rfl
@[simp] theorem State.applyReset_refusalMark (s : State) : s.applyReset.refusalMark = s.refusalMark := rfl
@[simp] theorem State.applyReset_draws (s : State) : s.applyReset.draws = s.draws := rfl
@[simp] theorem State.applyReset_turns (s : State) : s.applyReset.turns = s.turns := rfl
@[simp] theorem State.applyReset_prog (s : State) : s.applyReset.prog = s.prog := rfl
@[simp] theorem State.applyReset_names (s : State) : s.applyReset.names = s.names := rfl
@[simp] theorem State.applyReset_events (s : State) : s.applyReset.events = s.events := rfl

/-! ## markFault -/

@[simp] theorem State.markFault_cfg (s : State) (f : Fault) : (s.markFault f).cfg = s.cfg := rfl
@[simp] theorem State.markFault_mem (s : State) (f : Fault) : (s.markFault f).mem = s.mem := rfl
@[simp] theorem State.markFault_busy (s : State) (f : Fault) : (s.markFault f).busy = s.busy := rfl
@[simp] theorem State.markFault_valid (s : State) (f : Fault) : (s.markFault f).valid = s.valid := rfl
@[simp] theorem State.markFault_flips (s : State) (f : Fault) : (s.markFault f).flips = s.flips := rfl
@[simp] theorem State.markFault_pend (s : State) (f : Fault) : (s.markFault f).pend = s.pend := rfl
@[simp] theorem State.markFault_faultMark (s : State) (f : Fault) : (s.markFault f).faultMark = s.faultMark.or (some f) := rfl
@[simp] theorem State.markFault_refusalMark (s : State) (f : Fault) : (s.markFault f).refusalMark = s.refusalMark := rfl
@[simp] theorem State.markFault_draws (s : State) (f : Fault) : (s.markFault f).draws = s.draws := rfl
@[simp] theorem State.markFault_turns (s : State) (f : Fault) : (s.markFault f).turns = s.turns := rfl
@[simp] theorem State.markFault_prog (s : State) (f : Fault) : (s.markFault f).prog = s.prog := rfl
@[simp] theorem State.markFault_names (s : State) (f : Fault) : (s.markFault f).names = s.names := rfl
@[simp] theorem State.markFault_events (s : State) (f : Fault) : (s.markFault f).events = s.events := rfl

/-! ## markRefusal -/

@[simp] theorem State.markRefusal_cfg (s : State) (r : Refusal) : (s.markRefusal r).cfg = s.cfg := rfl
@[simp] theorem State.markRefusal_mem (s : State) (r : Refusal) : (s.markRefusal r).mem = s.mem := rfl
@[simp] theorem State.markRefusal_busy (s : State) (r : Refusal) : (s.markRefusal r).busy = s.busy := rfl
@[simp] theorem State.markRefusal_valid (s : State) (r : Refusal) : (s.markRefusal r).valid = s.valid := rfl
@[simp] theorem State.markRefusal_flips (s : State) (r : Refusal) : (s.markRefusal r).flips = s.flips := rfl
@[simp] theorem State.markRefusal_pend (s : State) (r : Refusal) : (s.markRefusal r).pend = s.pend := rfl
@[simp] theorem State.markRefusal_faultMark (s : State) (r : Refusal) : (s.markRefusal r).faultMark = s.faultMark := rfl
@[simp] theorem State.markRefusal_refusalMark (s : State) (r : Refusal) : (s.markRefusal r).refusalMark = s.refusalMark.or (r.reason) := rfl
@[simp] theorem State.markRefusal_draws (s : State) (r : Refusal) : (s.markRefusal r).draws = s.draws := rfl
@[simp] theorem State.markRefusal_turns (s : State) (r : Refusal) : (s.markRefusal r).turns = s.turns := rfl
@[simp] theorem State.markRefusal_prog (s : State) (r : Refusal) : (s.markRefusal r).prog = s.prog := rfl
@[simp] theorem State.markRefusal_names (s : State) (r : Refusal) : (s.markRefusal r).names = s.names := rfl
@[simp] theorem State.markRefusal_events (s : State) (r : Refusal) : (s.markRefusal r).events = s.events := rfl

/-! ## dropTurn -/

@[simp] theorem State.dropTurn_cfg (s : State) : s.dropTurn.cfg = s.cfg := rfl
@[simp] theorem State.dropTurn_mem (s : State) : s.dropTurn.mem = s.mem := rfl
@[simp] theorem State.dropTurn_busy (s : State) : s.dropTurn.busy = s.busy := rfl
@[simp] theorem State.dropTurn_valid (s : State) : s.dropTurn.valid = s.valid := rfl
@[simp] theorem State.dropTurn_flips (s : State) : s.dropTurn.flips = s.flips := rfl
@[simp] theorem State.dropTurn_pend (s : State) : s.dropTurn.pend = s.pend := rfl
@[simp] theorem State.dropTurn_faultMark (s : State) : s.dropTurn.faultMark = s.faultMark := rfl
@[simp] theorem State.dropTurn_refusalMark (s : State) : s.dropTurn.refusalMark = s.refusalMark := rfl
@[simp] theorem State.dropTurn_draws (s : State) : s.dropTurn.draws = s.draws := rfl
@[simp] theorem State.dropTurn_turns (s : State) : s.dropTurn.turns = s.turns.tail := rfl
@[simp] theorem State.dropTurn_prog (s : State) : s.dropTurn.prog = s.prog := rfl
@[simp] theorem State.dropTurn_names (s : State) : s.dropTurn.names = s.names := rfl
@[simp] theorem State.dropTurn_events (s : State) : s.dropTurn.events = s.events := rfl

/-! ## pendNow -/

@[simp] theorem State.pendNow_cfg (s : State) (i : Instr) : (s.pendNow i).cfg = s.cfg := rfl
@[simp] theorem State.pendNow_mem (s : State) (i : Instr) : (s.pendNow i).mem = s.mem := rfl
@[simp] theorem State.pendNow_busy (s : State) (i : Instr) : (s.pendNow i).busy = true := rfl
@[simp] theorem State.pendNow_valid (s : State) (i : Instr) : (s.pendNow i).valid = s.valid := rfl
@[simp] theorem State.pendNow_flips (s : State) (i : Instr) : (s.pendNow i).flips = s.flips := rfl
@[simp] theorem State.pendNow_pend (s : State) (i : Instr) : (s.pendNow i).pend = some i := rfl
@[simp] theorem State.pendNow_faultMark (s : State) (i : Instr) : (s.pendNow i).faultMark = s.faultMark := rfl
@[simp] theorem State.pendNow_refusalMark (s : State) (i : Instr) : (s.pendNow i).refusalMark = s.refusalMark := rfl
@[simp] theorem State.pendNow_draws (s : State) (i : Instr) : (s.pendNow i).draws = s.draws := rfl
@[simp] theorem State.pendNow_turns (s : State) (i : Instr) : (s.pendNow i).turns = .engine :: s.turns := rfl
@[simp] theorem State.pendNow_prog (s : State) (i : Instr) : (s.pendNow i).prog = s.prog := rfl
@[simp] theorem State.pendNow_names (s : State) (i : Instr) : (s.pendNow i).names = s.names := rfl
@[simp] theorem State.pendNow_events (s : State) (i : Instr) : (s.pendNow i).events = s.events := rfl

/-! ## issueNow -/

@[simp] theorem State.issueNow_cfg (s : State) (w : Word) : (s.issueNow w).cfg = s.cfg := rfl
@[simp] theorem State.issueNow_mem (s : State) (w : Word) : (s.issueNow w).mem = s.mem := rfl
@[simp] theorem State.issueNow_busy (s : State) (w : Word) : (s.issueNow w).busy = false := rfl
@[simp] theorem State.issueNow_valid (s : State) (w : Word) : (s.issueNow w).valid = s.valid := rfl
@[simp] theorem State.issueNow_flips (s : State) (w : Word) : (s.issueNow w).flips = s.flips := rfl
@[simp] theorem State.issueNow_pend (s : State) (w : Word) : (s.issueNow w).pend = none := rfl
@[simp] theorem State.issueNow_faultMark (s : State) (w : Word) : (s.issueNow w).faultMark = s.faultMark := rfl
@[simp] theorem State.issueNow_refusalMark (s : State) (w : Word) : (s.issueNow w).refusalMark = s.refusalMark := rfl
@[simp] theorem State.issueNow_draws (s : State) (w : Word) : (s.issueNow w).draws = s.draws := rfl
@[simp] theorem State.issueNow_turns (s : State) (w : Word) : (s.issueNow w).turns = .host :: s.turns := rfl
@[simp] theorem State.issueNow_prog (s : State) (w : Word) : (s.issueNow w).prog = .write 0x0000 4 (.const w) :: s.prog := rfl
@[simp] theorem State.issueNow_names (s : State) (w : Word) : (s.issueNow w).names = s.names := rfl
@[simp] theorem State.issueNow_events (s : State) (w : Word) : (s.issueNow w).events = s.events := rfl

/-! ## flipDataBit -/

@[simp] theorem State.flipDataBit_cfg (s : State) (r n : Nat) : (s.flipDataBit r n).cfg = s.cfg := rfl
@[simp] theorem State.flipDataBit_mem (s : State) (r n : Nat) : (s.flipDataBit r n).mem = s.mem.flipBit (dataOff r) n := rfl
@[simp] theorem State.flipDataBit_busy (s : State) (r n : Nat) : (s.flipDataBit r n).busy = s.busy := rfl
@[simp] theorem State.flipDataBit_valid (s : State) (r n : Nat) : (s.flipDataBit r n).valid = s.valid := rfl
@[simp] theorem State.flipDataBit_flips (s : State) (r n : Nat) : (s.flipDataBit r n).flips = s.flips := rfl
@[simp] theorem State.flipDataBit_pend (s : State) (r n : Nat) : (s.flipDataBit r n).pend = s.pend := rfl
@[simp] theorem State.flipDataBit_faultMark (s : State) (r n : Nat) : (s.flipDataBit r n).faultMark = s.faultMark := rfl
@[simp] theorem State.flipDataBit_refusalMark (s : State) (r n : Nat) : (s.flipDataBit r n).refusalMark = s.refusalMark := rfl
@[simp] theorem State.flipDataBit_draws (s : State) (r n : Nat) : (s.flipDataBit r n).draws = s.draws := rfl
@[simp] theorem State.flipDataBit_turns (s : State) (r n : Nat) : (s.flipDataBit r n).turns = s.turns := rfl
@[simp] theorem State.flipDataBit_prog (s : State) (r n : Nat) : (s.flipDataBit r n).prog = s.prog := rfl
@[simp] theorem State.flipDataBit_names (s : State) (r n : Nat) : (s.flipDataBit r n).names = s.names := rfl
@[simp] theorem State.flipDataBit_events (s : State) (r n : Nat) : (s.flipDataBit r n).events = s.events := rfl

/-! ## flipStoredBit -/

@[simp] theorem State.flipStoredBit_cfg (s : State) (k n : Nat) : (s.flipStoredBit k n).cfg = s.cfg := rfl
@[simp] theorem State.flipStoredBit_mem (s : State) (k n : Nat) : (s.flipStoredBit k n).mem = s.mem.flipBit (fpsOff k) n := rfl
@[simp] theorem State.flipStoredBit_busy (s : State) (k n : Nat) : (s.flipStoredBit k n).busy = s.busy := rfl
@[simp] theorem State.flipStoredBit_valid (s : State) (k n : Nat) : (s.flipStoredBit k n).valid = s.valid := rfl
@[simp] theorem State.flipStoredBit_flips (s : State) (k n : Nat) : (s.flipStoredBit k n).flips = s.flips := rfl
@[simp] theorem State.flipStoredBit_pend (s : State) (k n : Nat) : (s.flipStoredBit k n).pend = s.pend := rfl
@[simp] theorem State.flipStoredBit_faultMark (s : State) (k n : Nat) : (s.flipStoredBit k n).faultMark = s.faultMark := rfl
@[simp] theorem State.flipStoredBit_refusalMark (s : State) (k n : Nat) : (s.flipStoredBit k n).refusalMark = s.refusalMark := rfl
@[simp] theorem State.flipStoredBit_draws (s : State) (k n : Nat) : (s.flipStoredBit k n).draws = s.draws := rfl
@[simp] theorem State.flipStoredBit_turns (s : State) (k n : Nat) : (s.flipStoredBit k n).turns = s.turns := rfl
@[simp] theorem State.flipStoredBit_prog (s : State) (k n : Nat) : (s.flipStoredBit k n).prog = s.prog := rfl
@[simp] theorem State.flipStoredBit_names (s : State) (k n : Nat) : (s.flipStoredBit k n).names = s.names := rfl
@[simp] theorem State.flipStoredBit_events (s : State) (k n : Nat) : (s.flipStoredBit k n).events = s.events := rfl

/-! ## copyFresh -/

@[simp] theorem State.copyFresh_cfg (s : State) : s.copyFresh.cfg = s.cfg := rfl
@[simp] theorem State.copyFresh_mem (s : State) : s.copyFresh.mem = s.mem.writeWords (fpsOff 0) ((List.range s.cfg.fpWords).map s.freshFpWord) := rfl
@[simp] theorem State.copyFresh_busy (s : State) : s.copyFresh.busy = s.busy := rfl
@[simp] theorem State.copyFresh_valid (s : State) : s.copyFresh.valid = s.valid := rfl
@[simp] theorem State.copyFresh_flips (s : State) : s.copyFresh.flips = s.flips := rfl
@[simp] theorem State.copyFresh_pend (s : State) : s.copyFresh.pend = s.pend := rfl
@[simp] theorem State.copyFresh_faultMark (s : State) : s.copyFresh.faultMark = s.faultMark := rfl
@[simp] theorem State.copyFresh_refusalMark (s : State) : s.copyFresh.refusalMark = s.refusalMark := rfl
@[simp] theorem State.copyFresh_draws (s : State) : s.copyFresh.draws = s.draws := rfl
@[simp] theorem State.copyFresh_turns (s : State) : s.copyFresh.turns = s.turns := rfl
@[simp] theorem State.copyFresh_prog (s : State) : s.copyFresh.prog = s.prog := rfl
@[simp] theorem State.copyFresh_names (s : State) : s.copyFresh.names = s.names := rfl
@[simp] theorem State.copyFresh_events (s : State) : s.copyFresh.events = s.events := rfl

/-! ## emitEvents: only the trace may change (60 R139) -/

@[simp] theorem State.emitEvents_cfg (s : State) (ps : List (Nat × Nat)) : (s.emitEvents ps).cfg = s.cfg := by
  unfold State.emitEvents; split <;> rfl
@[simp] theorem State.emitEvents_mem (s : State) (ps : List (Nat × Nat)) : (s.emitEvents ps).mem = s.mem := by
  unfold State.emitEvents; split <;> rfl
@[simp] theorem State.emitEvents_busy (s : State) (ps : List (Nat × Nat)) : (s.emitEvents ps).busy = s.busy := by
  unfold State.emitEvents; split <;> rfl
@[simp] theorem State.emitEvents_valid (s : State) (ps : List (Nat × Nat)) : (s.emitEvents ps).valid = s.valid := by
  unfold State.emitEvents; split <;> rfl
@[simp] theorem State.emitEvents_flips (s : State) (ps : List (Nat × Nat)) : (s.emitEvents ps).flips = s.flips := by
  unfold State.emitEvents; split <;> rfl
@[simp] theorem State.emitEvents_pend (s : State) (ps : List (Nat × Nat)) : (s.emitEvents ps).pend = s.pend := by
  unfold State.emitEvents; split <;> rfl
@[simp] theorem State.emitEvents_faultMark (s : State) (ps : List (Nat × Nat)) : (s.emitEvents ps).faultMark = s.faultMark := by
  unfold State.emitEvents; split <;> rfl
@[simp] theorem State.emitEvents_refusalMark (s : State) (ps : List (Nat × Nat)) : (s.emitEvents ps).refusalMark = s.refusalMark := by
  unfold State.emitEvents; split <;> rfl
@[simp] theorem State.emitEvents_draws (s : State) (ps : List (Nat × Nat)) : (s.emitEvents ps).draws = s.draws := by
  unfold State.emitEvents; split <;> rfl
@[simp] theorem State.emitEvents_turns (s : State) (ps : List (Nat × Nat)) : (s.emitEvents ps).turns = s.turns := by
  unfold State.emitEvents; split <;> rfl
@[simp] theorem State.emitEvents_prog (s : State) (ps : List (Nat × Nat)) : (s.emitEvents ps).prog = s.prog := by
  unfold State.emitEvents; split <;> rfl
@[simp] theorem State.emitEvents_names (s : State) (ps : List (Nat × Nat)) : (s.emitEvents ps).names = s.names := by
  unfold State.emitEvents; split <;> rfl
@[simp] theorem State.emitEvents_nil (s : State) : s.emitEvents [] = s := by
  unfold State.emitEvents; split <;> simp

/-! ## afterRead: only the count of draws may change (20 R58) -/

@[simp] theorem State.afterRead_cfg (s : State) (off : Nat) : (s.afterRead off).cfg = s.cfg := by
  unfold State.afterRead; split <;> rfl
@[simp] theorem State.afterRead_mem (s : State) (off : Nat) : (s.afterRead off).mem = s.mem := by
  unfold State.afterRead; split <;> rfl
@[simp] theorem State.afterRead_busy (s : State) (off : Nat) : (s.afterRead off).busy = s.busy := by
  unfold State.afterRead; split <;> rfl
@[simp] theorem State.afterRead_valid (s : State) (off : Nat) : (s.afterRead off).valid = s.valid := by
  unfold State.afterRead; split <;> rfl
@[simp] theorem State.afterRead_flips (s : State) (off : Nat) : (s.afterRead off).flips = s.flips := by
  unfold State.afterRead; split <;> rfl
@[simp] theorem State.afterRead_pend (s : State) (off : Nat) : (s.afterRead off).pend = s.pend := by
  unfold State.afterRead; split <;> rfl
@[simp] theorem State.afterRead_faultMark (s : State) (off : Nat) : (s.afterRead off).faultMark = s.faultMark := by
  unfold State.afterRead; split <;> rfl
@[simp] theorem State.afterRead_refusalMark (s : State) (off : Nat) : (s.afterRead off).refusalMark = s.refusalMark := by
  unfold State.afterRead; split <;> rfl
@[simp] theorem State.afterRead_turns (s : State) (off : Nat) : (s.afterRead off).turns = s.turns := by
  unfold State.afterRead; split <;> rfl
@[simp] theorem State.afterRead_prog (s : State) (off : Nat) : (s.afterRead off).prog = s.prog := by
  unfold State.afterRead; split <;> rfl
@[simp] theorem State.afterRead_names (s : State) (off : Nat) : (s.afterRead off).names = s.names := by
  unfold State.afterRead; split <;> rfl
@[simp] theorem State.afterRead_events (s : State) (off : Nat) : (s.afterRead off).events = s.events := by
  unfold State.afterRead; split <;> rfl
theorem State.afterRead_idle {s : State} (off : Nat) (h : s.busy = false) : s.afterRead off = s := by
  simp [State.afterRead, h]

/-! ## upsetTurn: only the storage may change (20 R66) -/

@[simp] theorem upsetTurn_cfg (s : State) (off bit : Nat) : (upsetTurn s off bit).cfg = s.cfg := by
  unfold upsetTurn; split <;> rfl
@[simp] theorem upsetTurn_busy (s : State) (off bit : Nat) : (upsetTurn s off bit).busy = s.busy := by
  unfold upsetTurn; split <;> rfl
@[simp] theorem upsetTurn_valid (s : State) (off bit : Nat) : (upsetTurn s off bit).valid = s.valid := by
  unfold upsetTurn; split <;> rfl
@[simp] theorem upsetTurn_flips (s : State) (off bit : Nat) : (upsetTurn s off bit).flips = s.flips := by
  unfold upsetTurn; split <;> rfl
@[simp] theorem upsetTurn_pend (s : State) (off bit : Nat) : (upsetTurn s off bit).pend = s.pend := by
  unfold upsetTurn; split <;> rfl
@[simp] theorem upsetTurn_faultMark (s : State) (off bit : Nat) : (upsetTurn s off bit).faultMark = s.faultMark := by
  unfold upsetTurn; split <;> rfl
@[simp] theorem upsetTurn_refusalMark (s : State) (off bit : Nat) : (upsetTurn s off bit).refusalMark = s.refusalMark := by
  unfold upsetTurn; split <;> rfl
@[simp] theorem upsetTurn_draws (s : State) (off bit : Nat) : (upsetTurn s off bit).draws = s.draws := by
  unfold upsetTurn; split <;> rfl
@[simp] theorem upsetTurn_turns (s : State) (off bit : Nat) : (upsetTurn s off bit).turns = s.turns := by
  unfold upsetTurn; split <;> rfl
@[simp] theorem upsetTurn_prog (s : State) (off bit : Nat) : (upsetTurn s off bit).prog = s.prog := by
  unfold upsetTurn; split <;> rfl
@[simp] theorem upsetTurn_names (s : State) (off bit : Nat) : (upsetTurn s off bit).names = s.names := by
  unfold upsetTurn; split <;> rfl
@[simp] theorem upsetTurn_events (s : State) (off bit : Nat) : (upsetTurn s off bit).events = s.events := by
  unfold upsetTurn; split <;> rfl

/-! ## Outcomes -/

@[simp] theorem settle_next (s t : State) : settle s (.next t) = t := rfl
@[simp] theorem settle_fault (s : State) (f : Fault) : settle s (.fault f) = s.markFault f := rfl
@[simp] theorem settle_refused (s : State) (r : Refusal) : settle s (.refused r) = s.markRefusal r := rfl
@[simp] theorem reason_reservedCommand : Refusal.reason .reservedCommand = some .reservedCommand := rfl
@[simp] theorem raise_eq (f : Fault) : raise f = .fault f := rfl
@[simp] theorem finishCommand_next (t : State) : finishCommand (.next t) = .next t.clearPending := rfl
@[simp] theorem finishCommand_fault (f : Fault) : finishCommand (.fault f) = .fault f := rfl
@[simp] theorem finishCommand_refused (r : Refusal) : finishCommand (.refused r) = .refused r := rfl

/-! ## Reset values (10 R41) -/

@[simp] theorem State.resetWith_cfg (c : Config) : (State.resetWith c).cfg = c := rfl
@[simp] theorem State.resetWith_mem (c : Config) : (State.resetWith c).mem = [] := rfl
@[simp] theorem State.resetWith_busy (c : Config) : (State.resetWith c).busy = false := rfl
@[simp] theorem State.resetWith_valid (c : Config) : (State.resetWith c).valid = false := rfl
@[simp] theorem State.resetWith_flips (c : Config) : (State.resetWith c).flips = 0#32 := rfl
@[simp] theorem State.resetWith_pend (c : Config) : (State.resetWith c).pend = none := rfl
@[simp] theorem State.resetWith_faultMark (c : Config) : (State.resetWith c).faultMark = none := rfl
@[simp] theorem State.resetWith_refusalMark (c : Config) : (State.resetWith c).refusalMark = none := rfl
@[simp] theorem State.resetWith_draws (c : Config) : (State.resetWith c).draws = 0 := rfl
@[simp] theorem State.resetWith_turns (c : Config) : (State.resetWith c).turns = [] := rfl
@[simp] theorem State.resetWith_prog (c : Config) : (State.resetWith c).prog = [] := rfl
@[simp] theorem State.resetWith_names (c : Config) : (State.resetWith c).names = [] := rfl
@[simp] theorem State.resetWith_events (c : Config) : (State.resetWith c).events = [] := rfl

end Sys2Proof.Machine
end

