-- ==== Sys2Proof/Laws/Commands.lean ====
section
/-! SUPPORT. What the operand reads and the commands do, each said once: when they answer, with what state, and with which fault. -/

namespace Sys2Proof.Machine

/-! ## Sizes (00 R9 to R11) -/

theorem B_pos (c : Config) : 1 ≤ c.B := by simp [Config.B]
theorem B_le (c : Config) : c.B ≤ 32 := by have := c.blocksLessOne.isLt; simp only [Config.B]; omega
theorem R_eq (c : Config) : c.R = 32 * c.B := rfl
theorem R_le (c : Config) : c.R ≤ 1024 := by have := B_le c; rw [R_eq]; omega
theorem fpWords_eq (c : Config) : c.fpWords = 3 * c.B + 3 := rfl
theorem fpWords_le (c : Config) : c.fpWords ≤ 99 := by have := B_le c; rw [fpWords_eq]; omega

theorem dataOff_eq (r : Nat) : dataOff r = dataOff 0 + 4 * r := by simp [dataOff]
theorem fpsOff_eq (k : Nat) : fpsOff k = fpsOff 0 + 4 * k := by simp [fpsOff]
theorem fpfOff_eq (k : Nat) : fpfOff k = fpfOff 0 + 4 * k := by simp [fpfOff]

@[simp] theorem length_dataOf (s : State) : s.dataOf.length = s.cfg.R := by simp [State.dataOf]

theorem rowWord_dataOf (s : State) {r : Nat} (hr : r < s.cfg.R) : rowWord s.dataOf r = s.dataRow r := by
  simp [rowWord, State.dataOf, List.getD_eq_getElem?_getD, hr]

theorem storedOf_sized (s : State) : s.storedOf.Sized s.cfg.B := ofWords_sized (by simp [fpWords_eq])

theorem fpOfData_sized (s : State) : s.fpOfData.Sized s.cfg.B := freshFp_sized _ _

theorem length_fpOfData_words (s : State) : s.fpOfData.words.length = s.cfg.fpWords :=
  Fingerprint.length_words (fpOfData_sized s)

theorem storedOf_words (s : State) : s.storedOf.words = (List.range s.cfg.fpWords).map s.storedFpWord :=
  words_ofWords (by simp [fpWords_eq])

theorem storedOf_words_getD (s : State) {k : Nat} (hk : k < s.cfg.fpWords) :
    s.storedOf.words.getD k 0#32 = s.storedFpWord k := by
  simp [storedOf_words, List.getD_eq_getElem?_getD, hk]

/-! ## The operands (30 R69, 60 R132) -/

theorem readData_eq_ok {s : State} {D : List Word} : s.readData = .ok D ↔ s.DataWritten ∧ D = s.dataOf := by
  have key := @readWords_eq_ok s.mem (dataOff 0) s.cfg.R D
  simp only [← dataOff_eq] at key
  rw [State.readData]
  constructor
  · intro h
    split at h
    · next D' hD => cases h; exact key.1 hD
    · cases h
  · intro h
    rw [key.2 h]

theorem readStored_eq_ok {s : State} {f : Fingerprint} : s.readStored = .ok f ↔ s.StoredWritten ∧ f = s.storedOf := by
  have key := fun ws => @readWords_eq_ok s.mem (fpsOff 0) s.cfg.fpWords ws
  simp only [← fpsOff_eq] at key
  rw [State.readStored]
  constructor
  · intro h
    split at h
    · next ws hws => cases h; obtain ⟨h1, rfl⟩ := (key ws).1 hws; exact ⟨h1, rfl⟩
    · cases h
  · rintro ⟨h, rfl⟩
    rw [(key _).2 ⟨h, rfl⟩]; rfl

theorem readBlock_eq_ok {s : State} {D : List Word} {f : Fingerprint} :
    s.readBlock = .ok (D, f) ↔ s.DataWritten ∧ s.StoredWritten ∧ D = s.dataOf ∧ f = s.storedOf := by
  rw [State.readBlock]
  constructor
  · intro h
    split at h
    · cases h
    · next D' hD =>
      split at h
      · cases h
      · next f' hf =>
        cases h
        obtain ⟨h1, h2⟩ := readData_eq_ok.1 hD
        obtain ⟨h3, h4⟩ := readStored_eq_ok.1 hf
        exact ⟨h1, h3, h2, h4⟩
  · rintro ⟨h1, h2, rfl, rfl⟩
    simp only [readData_eq_ok.2 ⟨h1, rfl⟩, readStored_eq_ok.2 ⟨h2, rfl⟩]

/-- The lowest unwritten DATA word is the one reported (60 R132). -/
theorem readData_error {s : State} {r : Nat} (hr : r < s.cfg.R) (hw : ∀ q < r, (s.mem.readWord (dataOff q)).isSome)
    (hu : s.mem.readWord (dataOff r) = none) : s.readData = .error (.unwritten (dataOff r)) := by
  rw [State.readData, readWords_error hr (fun q hq => by rw [← dataOff_eq]; exact hw q hq) (by rw [← dataOff_eq]; exact hu)]
  simp only [← dataOff_eq]

/-- The lowest unwritten stored word is the one reported (60 R132). -/
theorem readStored_error {s : State} {k : Nat} (hk : k < s.cfg.fpWords)
    (hw : ∀ q < k, (s.mem.readWord (fpsOff q)).isSome) (hu : s.mem.readWord (fpsOff k) = none) :
    s.readStored = .error (.unwritten (fpsOff k)) := by
  rw [State.readStored, readWords_error hk (fun q hq => by rw [← fpsOff_eq]; exact hw q hq) (by rw [← fpsOff_eq]; exact hu)]
  simp only [← fpsOff_eq]

/-! ## The commands -/

theorem execCompute_eq_next {s t : State} :
    exec .compute s = .next t ↔ s.DataWritten ∧ t = s.writeFresh s.fpOfData := by
  rw [exec, execCompute]
  constructor
  · intro h
    split at h
    · cases h
    · next D hD => cases h; obtain ⟨h1, rfl⟩ := readData_eq_ok.1 hD; exact ⟨h1, rfl⟩
  · rintro ⟨h, rfl⟩
    rw [readData_eq_ok.2 ⟨h, rfl⟩]; rfl

theorem execCheck_eq_next {s t : State} :
    exec .check s = .next t ↔ s.DataWritten ∧ s.StoredWritten ∧ t = s.setValid (decide (s.storedOf = s.fpOfData)) := by
  rw [exec, execCheck]
  constructor
  · intro h
    split at h
    · cases h
    · next D f hD =>
      cases h
      obtain ⟨h1, h2, rfl, rfl⟩ := readBlock_eq_ok.1 hD
      exact ⟨h1, h2, by rw [verdict_eq_decide]; rfl⟩
  · rintro ⟨h1, h2, rfl⟩
    rw [readBlock_eq_ok.2 ⟨h1, h2, rfl, rfl⟩]
    simp only [verdict_eq_decide]; rfl

/-- The pairs REPAIR flips in a state whose block is written (42 R113). -/
def State.flipped (s : State) : List (Nat × Nat) := repairPairs s.cfg.R s.storedOf s.fpOfData

theorem execRepair_eq_next {s t : State} :
    exec .repair s = .next t ↔ s.DataWritten ∧ s.StoredWritten ∧
      t = ((s.writeData (applyFlips s.dataOf s.flipped)).setFlips s.flipped.length).emitEvents s.flipped := by
  rw [exec, execRepair]
  constructor
  · intro h
    split at h
    · cases h
    · next D f hD =>
      cases h
      obtain ⟨h1, h2, rfl, rfl⟩ := readBlock_eq_ok.1 hD
      exact ⟨h1, h2, rfl⟩
  · rintro ⟨h1, h2, rfl⟩
    rw [readBlock_eq_ok.2 ⟨h1, h2, rfl, rfl⟩]; rfl

/-- A command that answers a next state is one of the three, with its one effect. -/
theorem exec_cases {i : Instr} {s t : State} (h : exec i s = .next t) :
    (i = .compute ∧ s.DataWritten ∧ t = s.writeFresh s.fpOfData) ∨
    (i = .check ∧ s.DataWritten ∧ s.StoredWritten ∧ t = s.setValid (decide (s.storedOf = s.fpOfData))) ∨
    (i = .repair ∧ s.DataWritten ∧ s.StoredWritten ∧
      t = ((s.writeData (applyFlips s.dataOf s.flipped)).setFlips s.flipped.length).emitEvents s.flipped) := by
  cases i with
  | compute => exact .inl ⟨rfl, execCompute_eq_next.1 h⟩
  | check => exact .inr (.inl ⟨rfl, execCheck_eq_next.1 h⟩)
  | repair => exact .inr (.inr ⟨rfl, execRepair_eq_next.1 h⟩)

/-- No command is refused. -/
theorem exec_not_refused (i : Instr) (s : State) (r : Refusal) : exec i s ≠ .refused r := by
  cases i <;> rw [exec]
  · unfold execCompute; split <;> simp
  · unfold execCheck; split <;> simp
  · unfold execRepair; split <;> simp

/-! ## The pairs REPAIR flips -/

theorem mem_allPairs {R : Nat} {p : Nat × Nat} : p ∈ allPairs R ↔ p.1 < R ∧ p.2 < 32 := by
  obtain ⟨i, j⟩ := p
  simp [allPairs]

theorem mem_repairPairs {R : Nat} {stored fresh : Fingerprint} {p : Nat × Nat} :
    p ∈ repairPairs R stored fresh ↔ (p.1 < R ∧ p.2 < 32) ∧ flipsPair stored fresh p.1 p.2 = true := by
  rw [repairPairs, List.mem_filter, mem_allPairs]

@[simp] theorem length_flipPair (D : List Word) (p : Nat × Nat) : (flipPair D p).length = D.length := by
  simp [flipPair]

@[simp] theorem length_applyFlips (D : List Word) (ps : List (Nat × Nat)) : (applyFlips D ps).length = D.length := by
  induction ps generalizing D with
  | nil => rfl
  | cons p ps ih => simpa [applyFlips] using ih (flipPair D p)

theorem applyFlips_cons (D : List Word) (p : Nat × Nat) (ps : List (Nat × Nat)) :
    applyFlips D (p :: ps) = applyFlips (flipPair D p) ps := rfl

/-- One flip, seen at a row. -/
theorem rowWord_flipPair (D : List Word) {p : Nat × Nat} (r : Nat) (hp : p.1 < D.length) :
    rowWord (flipPair D p) r = if r = p.1 then rowWord D r ^^^ (1#32 <<< (31 - p.2)) else rowWord D r := by
  simp only [rowWord, flipPair, List.getD_eq_getElem?_getD, List.getElem?_modify]
  by_cases h : p.1 = r
  · subst h; simp [hp]
  · simp [h, Ne.symm h]

/-! ## What a command reads is what the words of DATA and of the stored fingerprint are -/

/-- States whose DATA words read the same have the same DATA and the same fingerprint of it (40 R95). -/
theorem data_congr {s t : State} (hc : t.cfg = s.cfg)
    (h : ∀ r < s.cfg.R, t.mem.readWord (dataOff r) = s.mem.readWord (dataOff r)) :
    (t.DataWritten ↔ s.DataWritten) ∧ t.dataOf = s.dataOf ∧ t.fpOfData = s.fpOfData := by
  have h2 : t.dataOf = s.dataOf := by
    unfold State.dataOf; rw [hc]
    refine List.map_congr_left fun r hr => ?_
    simp only [State.dataRow]; rw [h r (List.mem_range.1 hr)]
  refine ⟨?_, h2, by simp [State.fpOfData, h2, hc]⟩
  unfold State.DataWritten; rw [hc]
  exact forall_congr' fun r => forall_congr' fun hr => by rw [h r hr]

/-- States whose stored words read the same have the same stored fingerprint. -/
theorem stored_congr {s t : State} (hc : t.cfg = s.cfg)
    (h : ∀ k < s.cfg.fpWords, t.mem.readWord (fpsOff k) = s.mem.readWord (fpsOff k)) :
    (t.StoredWritten ↔ s.StoredWritten) ∧ t.storedOf = s.storedOf := by
  refine ⟨?_, ?_⟩
  · unfold State.StoredWritten; rw [hc]
    exact forall_congr' fun r => forall_congr' fun hr => by rw [h r hr]
  · unfold State.storedOf; rw [hc]; congr 1
    refine List.map_congr_left fun r hr => ?_
    simp only [State.storedFpWord]; rw [h r (List.mem_range.1 hr)]

/-- Every word of the fresh window after COMPUTE's write. -/
theorem readWord_writeFresh {s : State} {k : Nat} (hk : k < s.cfg.fpWords) :
    (s.writeFresh s.fpOfData).mem.readWord (fpfOff k) = some (s.fpOfData.words.getD k 0#32) := by
  rw [State.writeFresh_mem, fpfOff_eq k, readWord_writeWords_same]
  rw [length_fpOfData_words]; exact hk

/-- DATA after a write of all its words; the stored fingerprint stays. -/
theorem dataOf_writeData (s : State) {D : List Word} (hD : D.length = s.cfg.R) :
    (s.writeData D).DataWritten ∧ (s.writeData D).dataOf = D ∧
      ∀ k, (s.writeData D).mem.readWord (fpsOff k) = s.mem.readWord (fpsOff k) := by
  have hR := R_le s.cfg
  have h : ∀ r < s.cfg.R, (s.writeData D).mem.readWord (dataOff r) = some (D.getD r 0#32) := fun r hr => by
    rw [State.writeData_mem, dataOff_eq r, readWord_writeWords_same _ _ _ (by omega)]
  refine ⟨fun r hr => by rw [h r hr]; rfl, ?_, fun k => ?_⟩
  · apply wordList_ext
    · simp [hD]
    · intro k hk
      have hk : k < s.cfg.R := by simpa using hk
      have := rowWord_dataOf (s.writeData D) (r := k) hk
      rw [rowWord] at this
      rw [this, State.dataRow, h k hk]; rfl
  · rw [State.writeData_mem, readWord_writeWords_other]; simp only [dataOff, fpsOff]; omega

/-- A command on states that agree on what a command reads and writes has the same effect on both. -/
theorem exec_congr {s s' : State} (hc : s'.cfg = s.cfg) (hm : s'.mem = s.mem) (hv : s'.valid = s.valid)
    (hf : s'.flips = s.flips) {i : Instr} {u : State} (h : exec i s = .next u) :
    ∃ u', exec i s' = .next u' ∧ u'.mem = u.mem ∧ u'.valid = u.valid ∧ u'.flips = u.flips ∧ u'.cfg = s'.cfg ∧
      u'.prog = s'.prog ∧ u'.names = s'.names ∧ u'.turns = s'.turns ∧ u'.draws = s'.draws := by
  have d1 : s'.DataWritten ↔ s.DataWritten := by simp [State.DataWritten, hc, hm]
  have d2 : s'.StoredWritten ↔ s.StoredWritten := by simp [State.StoredWritten, hc, hm]
  have e0 : s'.dataRow = s.dataRow := by funext r; simp [State.dataRow, hm]
  have e0' : s'.storedFpWord = s.storedFpWord := by funext r; simp [State.storedFpWord, hm]
  have e1 : s'.dataOf = s.dataOf := by simp [State.dataOf, hc, e0]
  have e2 : s'.storedOf = s.storedOf := by simp [State.storedOf, hc, e0']
  have e3 : s'.fpOfData = s.fpOfData := by simp [State.fpOfData, hc, e1]
  have e4 : s'.flipped = s.flipped := by simp [State.flipped, hc, e2, e3]
  rcases exec_cases h with ⟨rfl, a, rfl⟩ | ⟨rfl, a, b, rfl⟩ | ⟨rfl, a, b, rfl⟩
  · exact ⟨_, execCompute_eq_next.2 ⟨d1.2 a, rfl⟩, by simp [hm, e3, hv, hf]⟩
  · exact ⟨_, execCheck_eq_next.2 ⟨d1.2 a, d2.2 b, rfl⟩, by simp [hm, e2, e3, hf]⟩
  · exact ⟨_, execRepair_eq_next.2 ⟨d1.2 a, d2.2 b, rfl⟩, by simp [hm, e1, e4, hv]⟩

/-- What REPAIR leaves (42 R113). -/
theorem repair_state {s t : State} (h : exec .repair s = .next t) :
    t.cfg = s.cfg ∧ t.DataWritten ∧ t.StoredWritten ∧ t.dataOf = applyFlips s.dataOf s.flipped ∧
      t.storedOf = s.storedOf ∧ t.fpOfData = freshFp s.cfg.B (applyFlips s.dataOf s.flipped) ∧
      t.flips = BitVec.ofNat 32 s.flipped.length ∧
      t.mem = s.mem.writeWords (dataOff 0) (applyFlips s.dataOf s.flipped) := by
  obtain ⟨h1, h2, rfl⟩ := execRepair_eq_next.1 h
  obtain ⟨a1, a2, a3⟩ := dataOf_writeData s (D := applyFlips s.dataOf s.flipped) (by simp)
  set u := s.writeData (applyFlips s.dataOf s.flipped) with hu
  set t := ((u.setFlips s.flipped.length).emitEvents s.flipped) with ht
  have hm : t.mem = u.mem := by simp [ht]
  have hc : t.cfg = u.cfg := by simp [ht]
  obtain ⟨e1, e2, e3⟩ := data_congr (s := u) (t := t) hc (fun r _ => by rw [hm])
  obtain ⟨f1, f2⟩ := stored_congr (s := u) (t := t) hc (fun r _ => by rw [hm])
  obtain ⟨g1, g2⟩ := stored_congr (s := s) (t := u) rfl (fun r _ => a3 r)
  exact ⟨hc, e1.2 a1, f1.2 (g1.2 h2), by rw [e2, a2], by rw [f2, g2], by rw [State.fpOfData, e2, a2, hc]; rfl,
    by simp [ht], hm⟩

end Sys2Proof.Machine
end

