-- ==== Sys2Proof/Laws/Access.lean ====
section
/-! SUPPORT. What the offsets of the window name, and what a host access can do, each said once. -/

namespace Sys2Proof.Machine

/-! ## Offsets (20 R46 to R50) -/

theorem regionOf_cmd (c : Config) : regionOf c 0x0000 = .cmd := rfl
theorem regionOf_status (c : Config) : regionOf c 0x0004 = .status := rfl
theorem regionOf_flips (c : Config) : regionOf c 0x0008 = .flips := rfl

theorem regionOf_eq_cmd {c : Config} {off : Nat} : regionOf c off = .cmd ↔ off = 0 := by
  unfold regionOf; split_ifs <;> simp_all

theorem regionOf_eq_status {c : Config} {off : Nat} : regionOf c off = .status ↔ off = 4 := by
  unfold regionOf; split_ifs <;> simp_all

theorem regionOf_eq_flips {c : Config} {off : Nat} : regionOf c off = .flips ↔ off = 8 := by
  unfold regionOf; split_ifs <;> simp_all

theorem regionOf_eq_data {c : Config} {off : Nat} : regionOf c off = .data ↔ 0x1000 ≤ off ∧ off < dataOff c.R := by
  have := R_le c
  unfold regionOf
  (repeat' split) <;> simp only [reduceCtorEq, false_iff, true_iff] <;> simp only [dataOff, fpsOff, fpfOff] at * <;> omega

theorem regionOf_eq_fps {c : Config} {off : Nat} : regionOf c off = .fps ↔ 0x2000 ≤ off ∧ off < fpsOff c.fpWords := by
  have := R_le c
  have := fpWords_le c
  unfold regionOf
  (repeat' split) <;> simp only [reduceCtorEq, false_iff, true_iff] <;> simp only [dataOff, fpsOff, fpfOff] at * <;> omega

theorem regionOf_eq_fpf {c : Config} {off : Nat} : regionOf c off = .fpf ↔ 0x3000 ≤ off ∧ off < fpfOff c.fpWords := by
  have := R_le c
  have := fpWords_le c
  unfold regionOf
  (repeat' split) <;> simp only [reduceCtorEq, false_iff, true_iff] <;> simp only [dataOff, fpsOff, fpfOff] at * <;> omega

theorem regionOf_dataOff {c : Config} {r : Nat} (h : r < c.R) : regionOf c (dataOff r) = .data :=
  regionOf_eq_data.2 (by simp only [dataOff]; omega)

theorem regionOf_fpsOff {c : Config} {k : Nat} (h : k < c.fpWords) : regionOf c (fpsOff k) = .fps :=
  regionOf_eq_fps.2 (by simp only [fpsOff]; omega)

theorem regionOf_fpfOff {c : Config} {k : Nat} (h : k < c.fpWords) : regionOf c (fpfOff k) = .fpf :=
  regionOf_eq_fpf.2 (by simp only [fpfOff]; omega)

theorem wordAccess_iff {c : Config} {off width : Nat} :
    wordAccess c off width = true ↔ regionOf c off ≠ .reserved ∧ off % 4 = 0 ∧ width = 4 := by
  simp [wordAccess, and_assoc]

theorem readable_iff {c : Config} {off width : Nat} :
    readable c off width = true ↔ wordAccess c off width = true ∧ regionOf c off ≠ .cmd := by
  simp [readable]

theorem writable_iff {c : Config} {off width : Nat} :
    writable c off width = true ↔ off % 4 = 0 ∧ width = 4 ∧
      (regionOf c off = .cmd ∨ regionOf c off = .data ∨ regionOf c off = .fps) := by
  simp only [writable, Bool.and_eq_true, wordAccess_iff, Bool.or_eq_true, beq_iff_eq]
  constructor
  · rintro ⟨⟨_, h1, h2⟩, h3⟩; exact ⟨h1, h2, or_assoc.1 h3⟩
  · rintro ⟨h1, h2, h3⟩
    refine ⟨⟨?_, h1, h2⟩, or_assoc.2 h3⟩
    rcases h3 with h | h | h <;> simp [h]

/-! ## Reads (20 R53) -/

/-- Everything a read that answers can have done. -/
theorem memRead_cases {s : State} {off width : Nat} {v : Word} (h : memRead s off width = .ok v) :
    off % 4 = 0 ∧ width = 4 ∧
      ((off = 4 ∧ v = s.status) ∨
       (s.busy = false ∧ off = 8 ∧ v = s.flips) ∨
       (s.busy = false ∧ off ≠ 4 ∧ off ≠ 8 ∧ s.mem.readWord off = some v)) := by
  unfold memRead at h
  split at h
  · cases h
  · next hr =>
    have hr' := (wordAccess_iff.1 (readable_iff.1 (by simpa using hr)).1).2
    refine ⟨hr'.1, hr'.2, ?_⟩
    split at h
    · next hs => cases h; exact .inl ⟨regionOf_eq_status.1 hs, rfl⟩
    · next hs =>
      split at h
      · cases h
      · next hb =>
        have hb' : s.busy = false := by simpa using hb
        split at h
        · next hf => cases h; exact .inr (.inl ⟨hb', regionOf_eq_flips.1 hf, rfl⟩)
        · next hf =>
          refine .inr (.inr ⟨hb', fun e => hs (e ▸ regionOf_status _), fun e => hf (e ▸ regionOf_flips _), ?_⟩)
          unfold State.storedWord at h
          split at h
          · next w hw => cases h; exact hw
          · cases h

theorem memRead_status (s : State) : memRead s 0x0004 4 = .ok s.status := by
  simp [memRead, readable, wordAccess, regionOf]

theorem memRead_flips {s : State} (h : s.busy = false) : memRead s 0x0008 4 = .ok s.flips := by
  simp [memRead, readable, wordAccess, regionOf, h]

/-- A written word of the storage reads back while BUSY = 0. -/
theorem memRead_storage {s : State} {off : Nat} {w : Word} (hb : s.busy = false) (ho : off % 4 = 0)
    (hr : regionOf s.cfg off = .data ∨ regionOf s.cfg off = .fps ∨ regionOf s.cfg off = .fpf)
    (hw : s.mem.readWord off = some w) : memRead s off 4 = .ok w := by
  have h1 : readable s.cfg off 4 = true :=
    readable_iff.2 ⟨wordAccess_iff.2 ⟨by rcases hr with h | h | h <;> simp [h], ho, rfl⟩,
      by rcases hr with h | h | h <;> simp [h]⟩
  rcases hr with h | h | h <;> simp [memRead, h1, h, hb, State.storedWord, hw]

/-! ## Writes (20 R54) -/

/-- Everything a write that answers a next state can have done. -/
theorem memWrite_cases {s t : State} {off width : Nat} {v : Word} (h : memWrite s off width v = .next t) :
    off % 4 = 0 ∧ width = 4 ∧ s.busy = false ∧
      ((off = 0 ∧ ∃ i, decode v = .ok i ∧ t = s.setPending i) ∨
       ((regionOf s.cfg off = .data ∨ regionOf s.cfg off = .fps) ∧ t = s.writeStorage off v)) := by
  unfold memWrite at h
  split at h
  · cases h
  · next hw =>
    obtain ⟨h1, h2, h3⟩ := writable_iff.1 (by simpa using hw)
    refine ⟨h1, h2, ?_⟩
    split at h
    · next hc =>
      unfold issueCommand at h
      split at h
      · cases h
      · next hb =>
        refine ⟨by simpa using hb, .inl ⟨regionOf_eq_cmd.1 hc, ?_⟩⟩
        split at h
        · cases h
        · next i hi => cases h; exact ⟨i, hi, rfl⟩
    · next hc =>
      split at h
      · cases h
      · next hb =>
        cases h
        exact ⟨by simpa using hb, .inr ⟨h3.resolve_left hc, rfl⟩⟩

theorem memWrite_cmd (s : State) (w : Word) : memWrite s 0x0000 4 w = issueCommand s w := by
  simp [memWrite, writable, wordAccess, regionOf]

theorem memWrite_storage {s : State} {off : Nat} (w : Word) (hb : s.busy = false) (ho : off % 4 = 0)
    (hr : regionOf s.cfg off = .data ∨ regionOf s.cfg off = .fps) :
    memWrite s off 4 w = .next (s.writeStorage off w) := by
  have h1 : writable s.cfg off 4 = true := writable_iff.2 ⟨ho, rfl, .inr hr⟩
  rcases hr with h | h <;> simp [memWrite, h1, h, hb]

/-- A write is refused only for a reserved command word (60 R131). -/
theorem memWrite_refused {s : State} {off width : Nat} {v : Word} {r : Refusal}
    (h : memWrite s off width v = .refused r) : r = .reservedCommand := by
  unfold memWrite at h
  split at h
  · cases h
  · split at h
    · unfold issueCommand at h
      split at h
      · cases h
      · split at h <;> cases h; rfl
    · split at h <;> cases h

/-! ## The offsets written out from the map -/

theorem isDataWord_iff {c : Config} {off : Nat} : isDataWord c off ↔ regionOf c off = .data ∧ off % 4 = 0 := by
  constructor
  · rintro ⟨r, hr, rfl⟩; exact ⟨regionOf_dataOff hr, by omega⟩
  · rintro ⟨h, ha⟩
    have := regionOf_eq_data.1 h
    simp only [dataOff] at this
    exact ⟨(off - 0x1000) / 4, by omega, by omega⟩

theorem isStoredWord_iff {c : Config} {off : Nat} : isStoredWord c off ↔ regionOf c off = .fps ∧ off % 4 = 0 := by
  constructor
  · rintro ⟨k, hk, rfl⟩; exact ⟨regionOf_fpsOff hk, by omega⟩
  · rintro ⟨h, ha⟩
    have := regionOf_eq_fps.1 h
    simp only [fpsOff] at this
    exact ⟨(off - 0x2000) / 4, by omega, by omega⟩

theorem isFreshWord_iff {c : Config} {off : Nat} : isFreshWord c off ↔ regionOf c off = .fpf ∧ off % 4 = 0 := by
  constructor
  · rintro ⟨k, hk, rfl⟩; exact ⟨regionOf_fpfOff hk, by omega⟩
  · rintro ⟨h, ha⟩
    have := regionOf_eq_fpf.1 h
    simp only [fpfOff] at this
    exact ⟨(off - 0x3000) / 4, by omega, by omega⟩

/-- The bits of STATUS (10 R32). -/
theorem statusWord_bits (v b : Bool) : (statusWord v b).getLsbD 0 = b ∧ (statusWord v b).getLsbD 1 = v ∧
    ∀ n, 2 ≤ n → (statusWord v b).getLsbD n = false := by
  refine ⟨by cases v <;> cases b <;> rfl, by cases v <;> cases b <;> rfl, fun n hn => ?_⟩
  by_cases h : n < 32
  · have : ∀ n < 32, 2 ≤ n → (statusWord v b).getLsbD n = false := by cases v <;> cases b <;> decide
    exact this n h hn
  · exact BitVec.getLsbD_of_ge _ _ (by omega)

theorem issueCommand_ok {s : State} {w : Word} {i : Instr} (hb : s.busy = false) (h : decode w = .ok i) :
    issueCommand s w = .next (s.setPending i) := by
  simp [issueCommand, hb, h]

/-! ## Names -/

/-- What a name reads as after a binding. -/
theorem lookup_bind (ns : List (HostName × Word)) (x y : HostName) (w : Word) :
    lookupName (bindName ns x w) y = if y = x then some w else lookupName ns y := by
  induction ns with
  | nil =>
    by_cases h : y = x
    · subst h; simp [bindName, lookupName]
    · simp [bindName, lookupName, h, Ne.symm h]
  | cons c ns ih =>
    obtain ⟨z, u⟩ := c
    unfold bindName
    split
    · by_cases h : y = x
      · subst h; simp [lookupName]
      · simp [lookupName, h, Ne.symm h]
    · split
      · next h1 h2 =>
        subst h2
        by_cases h : y = x
        · subst h; simp [lookupName]
        · simp [lookupName, h, Ne.symm h]
      · next h1 h2 =>
        rw [lookupName, ih, lookupName]
        by_cases h : y = x
        · subst h; rw [if_neg (fun e => h2 e.symm)]; simp
        · simp [h]

end Sys2Proof.Machine
end

