-- ==== Sys2Proof/Laws/Lines.lean ====
section
/-! SUPPORT. The lines of the diagonal families as one column per row, and the fingerprint computed from them: equal to the definition by lines (40 R88 to R90), and cheap to evaluate. -/

namespace Sys2Proof.Machine

/-- The parity of slash line `d`, one column `d - r` for each row `r` (40 R88). -/
def slashLine (D : List Word) (d : Nat) : Bool :=
  xorBelow D.length fun r => (decide (r ≤ d) && decide (d - r < 32)) && matrixBit D r (d - r)

/-- The parity of back-slash line `d`, one column `r + 31 - d` for each row `r` (40 R89). -/
def backslashLine (D : List Word) (d : Nat) : Bool :=
  xorBelow D.length fun r => (decide (r ≤ d) && decide (d ≤ r + 31)) && matrixBit D r (r + 31 - d)

/-- A range in which at most one place can be set, where that place is in the range or not. -/
theorem xorBelow_place {n k : Nat} {b : Bool} (f : Nat → Bool) (hb : b = true ↔ k < n) (hf : ∀ j < n, j ≠ k → f j = false) :
    xorBelow n f = (b && f k) := by
  by_cases h : k < n
  · rw [xorBelow_single f h hf, hb.2 h]; rfl
  · rw [xorBelow_eq_false fun j hj => hf j hj (by omega)]
    have : b = false := by rw [Bool.eq_false_iff]; exact fun e => h (hb.1 e)
    rw [this]; rfl

theorem lineParity_slash (D : List Word) (d : Nat) : lineParity D .slash d = slashLine D d := by
  refine xorBelow_congr fun r _ => ?_
  by_cases hr : r ≤ d
  · rw [xorBelow_place (k := d - r) (b := decide (d - r < 32)) _ (by simp)
      fun j _ hj => by simp [LineFamily.lineOf]; omega]
    have h1 : (LineFamily.slash.lineOf r (d - r) == d) = true := by simp [LineFamily.lineOf]; omega
    rw [h1, decide_eq_true hr]; simp
  · rw [xorBelow_eq_false fun j _ => by simp [LineFamily.lineOf]; omega]
    rw [decide_eq_false hr]; rfl

theorem lineParity_backslash (D : List Word) (d : Nat) : lineParity D .backslash d = backslashLine D d := by
  refine xorBelow_congr fun r _ => ?_
  by_cases hr : r ≤ d ∧ d ≤ r + 31
  · rw [xorBelow_place (k := r + 31 - d) (b := true) _ (by simp; omega)
      fun j _ hj => by simp [LineFamily.lineOf]; omega]
    have h1 : (LineFamily.backslash.lineOf r (r + 31 - d) == d) = true := by simp [LineFamily.lineOf]; omega
    rw [h1, decide_eq_true hr.1, decide_eq_true hr.2]; simp
  · rw [xorBelow_eq_false fun j hj => by simp [LineFamily.lineOf]; omega]
    rw [← Bool.decide_and, decide_eq_false hr]; rfl

/-- The packing of a diagonal family whose line parities are `line` (40 R90). -/
def packLines (B : Nat) (line : Nat → Bool) : List Word :=
  (List.range (B + 1)).map fun i => ofBitsMsb fun k => decide (32 * i + k < 32 * B + 31) && line (32 * i + k)

/-- The fresh fingerprint, with one column per row of a diagonal line. -/
def lineFp (B : Nat) (D : List Word) : Fingerprint :=
  { h := hPar B D, v := vPar D, sd := packLines B (slashLine D), bd := packLines B (backslashLine D) }

theorem freshFp_eq_lineFp : freshFp = lineFp := by
  funext B D
  simp only [freshFp, lineFp, sdPar, bdPar, diagPar, packLines, lineParity_slash, lineParity_backslash, LineFamily.lineCount]
  rfl

/-- The commands with the fingerprint computed that way: for evaluation in tests. -/
def lineExec (i : Instr) (s : State) : Host.Outcome State Fault Refusal :=
  match i with
  | .compute =>
    match s.readData with
    | .error f => raise f
    | .ok D => .next (s.writeFresh (lineFp s.cfg.B D))
  | .check =>
    match s.readBlock with
    | .error f => raise f
    | .ok (D, stored) => .next (s.setValid (verdict stored (lineFp s.cfg.B D)))
  | .repair =>
    match s.readBlock with
    | .error f => raise f
    | .ok (D, stored) =>
      let ps := repairPairs s.cfg.R stored (lineFp s.cfg.B D)
      .next (((s.writeData (applyFlips D ps)).setFlips ps.length).emitEvents ps)

theorem exec_eq_lineExec (i : Instr) (s : State) : exec i s = lineExec i s := by
  cases i
  · rw [exec, execCompute, freshFp_eq_lineFp]; rfl
  · rw [exec, execCheck, freshFp_eq_lineFp]; rfl
  · rw [exec, execRepair, freshFp_eq_lineFp]; rfl

end Sys2Proof.Machine
end

