-- ==== Sys2Proof/Laws/PerInstr.lean ====
section
/-! SUPPORT. What is said of each command by its constructor: the family Encoding. -/

namespace Sys2Proof.Laws.Encoding

/-- The word of a command has its opcode in OP and 0 in RSVD (30 R67), is a word software may write (30 R70), is read back by
the decoder, and is selected by one row of the opcode table, that command's (30 R72). -/
def Statement (i : Instr) : Prop :=
  i.wf = true ∧ opField (encode i) = opcodeOf i ∧ rsvdField (encode i) = 0#24 ∧
  wellFormedCommandWord (encode i) = true ∧ decodeTableWord 32 (encode i).toNat = some i ∧
  (opcodeTable.filter fun row => row.selects (encode i)).map OpcodeRow.instr = [i]

theorem compute : Statement .compute := by unfold Statement; decide
theorem check : Statement .check := by unfold Statement; decide
theorem repair : Statement .repair := by unfold Statement; decide

end Sys2Proof.Laws.Encoding
end

