-- ==== Sys2Proof/Laws/Turns.lean ====
section
/-! SUPPORT. What one turn of each agent can do: the inversion that every claim about a step cites. -/

namespace Sys2Proof.Machine

/-- What an agent's step does to the engine's state, apart from the host's program and the model's own counters. -/
inductive EngineEffect (s t : State) : Prop where
  /-- Nothing: a read, the host's own computation, or no step at all. -/
  | none (h : t.mem = s.mem ∧ t.busy = s.busy ∧ t.valid = s.valid ∧ t.flips = s.flips ∧ t.pend = s.pend)
  /-- A command is issued (30 R74). -/
  | issue (i : Instr) (idle : s.busy = false)
      (h : t.mem = s.mem ∧ t.busy = true ∧ t.valid = s.valid ∧ t.flips = s.flips ∧ t.pend = some i)
  /-- A word of DATA or of the stored fingerprint is written (20 R54). -/
  | write (off : Nat) (w : Word) (idle : s.busy = false) (aligned : off % 4 = 0)
      (region : regionOf s.cfg off = .data ∨ regionOf s.cfg off = .fps)
      (h : t.mem = s.mem.writeWord off w ∧ t.busy = s.busy ∧ t.valid = s.valid ∧ t.flips = s.flips ∧ t.pend = s.pend)

theorem hostRead_cases {s t : State} {off width : Nat} {x : HostName} {nxt : Word → List HostOp}
    (h : hostRead s off width x nxt = .next t) :
    ∃ v, memRead s off width = .ok v ∧ t = (s.afterRead off).setHost (nxt v) (bindName s.names x v) := by
  unfold hostRead at h
  split at h
  · cases h
  · next v hv => cases h; exact ⟨v, hv, rfl⟩

theorem hostWrite_cases {s t : State} {off width : Nat} {e : HostExpr} {rest : List HostOp}
    (h : hostWrite s off width e rest = .next t) :
    ∃ u, memWrite s off width (evalExpr s.names e) = .next u ∧ t = u.setHost rest u.names := by
  unfold hostWrite at h
  split at h
  · next u hu => cases h; exact ⟨u, hu, rfl⟩
  · cases h
  · cases h

/-- A host turn that answers a next state has one of three effects on the engine, and leaves the parameters, the marks, the
schedule and the trace alone. -/
theorem hostTurn_effect {s t : State} (h : hostTurn s = .next t) :
    EngineEffect s t ∧ t.cfg = s.cfg ∧ t.faultMark = s.faultMark ∧ t.refusalMark = s.refusalMark ∧
      t.turns = s.turns ∧ t.events = s.events := by
  unfold hostTurn at h
  split at h
  · cases h; exact ⟨.none (by simp), by simp⟩
  · obtain ⟨v, _, rfl⟩ := hostRead_cases h; exact ⟨.none (by simp), by simp⟩
  · next off width e rest _ =>
    obtain ⟨u, hu, rfl⟩ := hostWrite_cases h
    obtain ⟨ha, _, hb, ⟨_, i, _, rfl⟩ | ⟨hr, rfl⟩⟩ := memWrite_cases hu
    · exact ⟨.issue i hb (by simp), by simp⟩
    · exact ⟨.write off (evalExpr s.names e) hb ha hr (by simp), by simp⟩
  · obtain ⟨v, _, rfl⟩ := hostRead_cases h; exact ⟨.none (by simp), by simp⟩
  · cases h; exact ⟨.none (by simp [hostSet]), by simp [hostSet]⟩
  · cases h; exact ⟨.none (by simp [hostSkipIf]), by simp [hostSkipIf]⟩

/-- A host turn is refused only for the CMD write of a reserved word (60 R131). -/
theorem hostTurn_refused {s : State} {r : Refusal} (h : hostTurn s = .refused r) : r = .reservedCommand := by
  have hread : ∀ off width x nxt, hostRead s off width x nxt ≠ .refused r := fun off width x nxt => by
    unfold hostRead; split <;> simp
  unfold hostTurn at h
  split at h
  · cases h
  · exact absurd h (hread _ _ _ _)
  · unfold hostWrite at h
    split at h
    · cases h
    · cases h
    · next hr => cases h; exact memWrite_refused hr
  · exact absurd h (hread _ _ _ _)
  · cases h
  · cases h

/-- An engine turn that answers a next state did nothing, or completed the command in PEND. -/
theorem engineTurn_cases {s t : State} (h : engineTurn s = .next t) :
    (s.busy = false ∧ t = s) ∨ (s.busy = true ∧ s.pend = none ∧ t = s.clearPending) ∨
      (s.busy = true ∧ ∃ i u, s.pend = some i ∧ exec i s = .next u ∧ t = u.clearPending) := by
  unfold engineTurn at h
  split at h
  · next hb =>
    unfold complete at h
    split at h
    · next i hi =>
      cases he : exec i s with
      | next u => rw [he] at h; cases h; exact .inr (.inr ⟨hb, i, u, hi, he, rfl⟩)
      | fault f => rw [he] at h; cases h
      | refused r => rw [he] at h; cases h
    · next hp => cases h; exact .inr (.inl ⟨hb, hp, rfl⟩)
  · next hb => cases h; exact .inl ⟨by simpa using hb, rfl⟩

/-- A step that answers a next state is one agent's turn. -/
theorem step_cases {s t : State} (h : step s = .next t) :
    (s.nextTurn = .host ∧ hostTurn s.dropTurn = .next t) ∨
    (s.nextTurn = .engine ∧ engineTurn s.dropTurn = .next t) ∨
    (s.nextTurn = .reset ∧ t = s.dropTurn.applyReset) ∨
    (∃ off bit, s.nextTurn = .upset off bit ∧ t = upsetTurn s.dropTurn off bit) := by
  unfold step runTurn at h
  split at h
  · next e => exact .inl ⟨e, h⟩
  · next e => exact .inr (.inl ⟨e, h⟩)
  · next e => cases h; exact .inr (.inr (.inl ⟨e, rfl⟩))
  · next off bit e => cases h; exact .inr (.inr (.inr ⟨off, bit, e, rfl⟩))

/-- An upset flips one bit of one whole word of the Protected Block, or does nothing (20 R66). -/
theorem upsetTurn_cases (s : State) (off bit : Nat) :
    upsetTurn s off bit = s ∨
      (s.cfg.upsetModel = .single ∧ s.busy = false ∧ off % 4 = 0 ∧ bit < 32 ∧
        (regionOf s.cfg off = .data ∨ regionOf s.cfg off = .fps) ∧
        upsetTurn s off bit = { s with mem := s.mem.flipBit off bit }) := by
  unfold upsetTurn
  split
  · next h => exact .inr ⟨h.1, h.2.1, h.2.2.1, h.2.2.2.1, h.2.2.2.2, rfl⟩
  · exact .inl rfl

/-- The engine's turn is never refused. -/
theorem engineTurn_not_refused (s : State) (r : Refusal) : engineTurn s ≠ .refused r := by
  unfold engineTurn
  split
  · unfold complete
    split
    · next i _ => cases h : exec i s with
      | next u => simp
      | fault f => simp
      | refused r' => exact absurd h (exec_not_refused i s r')
    · simp
  · simp

theorem step_host {s : State} (h : s.nextTurn = .host) : step s = hostTurn s.dropTurn := by simp [step, h, runTurn]

theorem step_engine {s : State} (h : s.nextTurn = .engine) : step s = engineTurn s.dropTurn := by simp [step, h, runTurn]

end Sys2Proof.Machine
end

