-- ==== Sys2Proof/Laws/Runs.lean ====
section
/-! SUPPORT. The steps of a run whose schedule names nobody: each operation of a host program in a quiescent machine (70 R162), the completion of a command in flight, and how steps join into a run. -/

namespace Sys2Proof.Machine

/-! ## Joining steps -/

theorem runSteps_zero (s : State) : runSteps 0 s = .next s := rfl

theorem runSteps_next {k : Nat} {s t : State} (h : step s = .next t) : runSteps (k + 1) s = runSteps k t := by
  rw [runSteps, h]

theorem runSteps_add {j k : Nat} {s t : State} (h : runSteps j s = .next t) : runSteps (j + k) s = runSteps k t := by
  induction j generalizing s with
  | zero => rw [runSteps_zero] at h; cases h; rw [Nat.zero_add]
  | succ j ih =>
    rw [runSteps] at h
    split at h
    · next u hu => rw [show j + 1 + k = (j + k) + 1 by omega, runSteps_next hu, ih h]
    · cases h
    · cases h

/-! ## Steps with an empty schedule -/

/-- With no schedule and no command in flight, the host moves. -/
theorem step_quiescent {s : State} (ht : s.turns = []) (hb : s.busy = false) : step s = hostTurn s := by
  have hn : s.nextTurn = .host := by simp [State.nextTurn, ht, State.defaultTurn, hb]
  have hd : s.dropTurn = s := by cases s; simp only at ht; subst ht; rfl
  rw [step_host hn, hd]

/-- With no schedule and a command in flight, the engine completes it (30 R76). -/
theorem step_complete {s u : State} {i : Instr} (ht : s.turns = []) (hb : s.busy = true) (hi : s.pend = some i)
    (hu : exec i s = .next u) : step s = .next u.clearPending := by
  have hn : s.nextTurn = .engine := by simp [State.nextTurn, ht, State.defaultTurn, hb]
  have hd : s.dropTurn = s := by cases s; simp only at ht; subst ht; rfl
  rw [step_engine hn, hd]
  simp [engineTurn, complete, hb, hi, hu]

theorem step_cmd {s : State} {i : Instr} {rest : List HostOp} (ht : s.turns = []) (hb : s.busy = false)
    (hp : s.prog = cmdOp i :: rest) : step s = .next ((s.setPending i).setHost rest s.names) := by
  have hd : decode (encode i) = .ok i := by cases i <;> rfl
  rw [step_quiescent ht hb, hostTurn, hp]
  simp only [cmdOp, hostWrite, evalExpr, memWrite_cmd]
  rw [issueCommand_ok hb hd]
  rfl

theorem step_read {s : State} {off : Nat} {x : HostName} {v : Word} {rest : List HostOp} (ht : s.turns = [])
    (hb : s.busy = false) (hp : s.prog = .read off 4 x :: rest) (hv : memRead s off 4 = .ok v) :
    step s = .next (s.setHost rest (bindName s.names x v)) := by
  rw [step_quiescent ht hb, hostTurn, hp]
  simp only [hostRead, hv, State.afterRead_idle off hb]

/-- While BUSY = 0 a POLL reads STATUS once and is done (30 R79). -/
theorem step_poll {s : State} {x : HostName} {rest : List HostOp} (ht : s.turns = []) (hb : s.busy = false)
    (hp : s.prog = .poll x :: rest) : step s = .next (s.setHost rest (bindName s.names x (statusWord s.valid false))) := by
  have h0 : (statusWord s.valid false).getLsbD 0 = false := (statusWord_bits _ _).1
  have hs : s.status = statusWord s.valid false := by simp [State.status, State.validRead, hb]
  rw [step_quiescent ht hb, hostTurn, hp]
  simp only [hostRead, memRead_status, State.afterRead_idle _ hb, hs, h0]
  rfl

theorem step_write {s : State} {off : Nat} {e : HostExpr} {v : Word} {rest : List HostOp} (ht : s.turns = [])
    (hb : s.busy = false) (hp : s.prog = .write off 4 e :: rest) (he : evalExpr s.names e = v) (ho : off % 4 = 0)
    (hr : regionOf s.cfg off = .data ∨ regionOf s.cfg off = .fps) :
    step s = .next ((s.writeStorage off v).setHost rest s.names) := by
  rw [step_quiescent ht hb, hostTurn, hp]
  simp only [hostWrite, he, memWrite_storage v hb ho hr]
  rfl

theorem step_set {s : State} {x : HostName} {e : HostExpr} {v : Word} {rest : List HostOp} (ht : s.turns = [])
    (hb : s.busy = false) (hp : s.prog = .set x e :: rest) (he : evalExpr s.names e = v) :
    step s = .next (s.setHost rest (bindName s.names x v)) := by
  rw [step_quiescent ht hb, hostTurn, hp]
  simp only [hostSet, he]

theorem step_skipIf {s : State} {e : HostExpr} {n : Nat} {v : Word} {rest : List HostOp} (ht : s.turns = [])
    (hb : s.busy = false) (hp : s.prog = .skipIf e n :: rest) (he : evalExpr s.names e = v) :
    step s = .next (s.setHost (if v = 0#32 then rest else rest.drop n) s.names) := by
  rw [step_quiescent ht hb, hostTurn, hp]
  simp only [hostSkipIf, he]

end Sys2Proof.Machine
end

