-- ==== Sys2Proof/Tests/Slice0.lean ====
section
/-! SUPPORT. The model's own tests: what WellFormed and the decoder refuse, words written out from the encoding, the spec's vectors (95_test_vectors.md), and for each statement with hypotheses a state that meets them. -/

namespace Sys2Proof.Machine

/-! ## WellFormed: an ill-formed term for each check -/

/-- 30 R70: OP 0x00, OP 0x04 and RSVD = 1 are refused; 30 R68's words are not. -/
theorem test_wf_command_word :
    wellFormedCommandWord 0x00000000#32 = false ∧ wellFormedCommandWord 0x00000004#32 = false ∧
    wellFormedCommandWord 0x00000101#32 = false ∧ wellFormedCommandWord 0x80000001#32 = false ∧
    wellFormedCommandWord 0x00000001#32 = true ∧ wellFormedCommandWord 0x00000003#32 = true := by decide

/-- A name nothing has bound, and bit 32 of a word. -/
theorem test_wf_expression :
    HostExpr.wf [1] (.name 2) = false ∧ HostExpr.wf [1] (.xor (.name 1) (.name 2)) = false ∧
    HostExpr.wf [1] (.bit (.name 1) 32) = false ∧ HostExpr.wf [1] (.bit (.name 1) 31) = true := by decide

/-- 20 R45, R51, R52: an offset past the window, a misaligned one, a width other than 4. -/
theorem test_wf_offset :
    wellFormedOffset 0x4000 = false ∧ wellFormedOffset 0x1002 = false ∧ wellFormedOffset 0x3FFC = true ∧
    HostOp.wf [] 0 (.read 0x1000 1 0) = false ∧ HostOp.wf [] 0 (.read 0x1001 4 0) = false ∧
    HostOp.wf [] 0 (.write 0x1000 2 (.const 0#32)) = false := by decide

/-- A write of an unbound name, a `set` of one, a skip past the end; the pseudo-instructions are well-formed. -/
theorem test_wf_program :
    wellFormedProgram [] [.write 0x1000 4 (.name 0)] = false ∧ wellFormedProgram [] [.set 0 (.name 0)] = false ∧
    wellFormedProgram [] [.skipIf (.const 0#32) 1] = false ∧ wellFormedProgram [] (stampOps Config.default 0) = true ∧
    wellFormedProgram [] (scrubOps 0 1 2 3) = true ∧ wellFormedProgram [] (flipDataOps 63 31 0) = true := by decide

/-! ## Decode: words written out bit by bit (30 R67, R68) -/

theorem test_decode_compute : decode 0b00000000000000000000000000000001#32 = .ok .compute := by decide
theorem test_decode_check : decode 0b00000000000000000000000000000010#32 = .ok .check := by decide
theorem test_decode_repair : decode 0b00000000000000000000000000000011#32 = .ok .repair := by decide

/-- 95 V-I14 to V-I16, and RSVD's highest bit. -/
theorem test_decode_reserved :
    decode 0x00000000#32 = .error .reservedCommand ∧ decode 0x00000101#32 = .error .reservedCommand ∧
    decode 0x00000004#32 = .error .reservedCommand ∧ decode 0x80000001#32 = .error .reservedCommand := by decide

/-- A row longer than one command word is no command (log 19). -/
theorem test_decode_table_word :
    decodeTableWord 32 2 = some .check ∧ decodeTableWord 32 0x102 = none ∧ decodeTableWord 64 2 = none := by decide

/-! ## States for the tests: one block, B = 1 -/

/-- An engine with `B = 1`, the vectors' size. -/
def oneBlock : Config := { Config.default with blocksLessOne := 0 }

/-- The listing of words from offset `off` on. -/
def cellsOf (off : Nat) : List Word → Memory
  | [] => []
  | w :: ws =>
    (off, byteOf w 0) :: (off + 1, byteOf w 1) :: (off + 2, byteOf w 2) :: (off + 3, byteOf w 3) :: cellsOf (off + 4) ws

/-- A quiescent machine whose DATA and stored fingerprint hold the given words. -/
def block (D stored : List Word) : State :=
  { State.resetWith oneBlock with mem := cellsOf (dataOff 0) D ++ cellsOf (fpsOff 0) stored }

/-- DATA all 0 but row `r`. -/
def oneRow (r : Nat) (w : Word) : List Word := (List.range 32).map fun q => if q = r then w else 0#32

/-- DATA all 0, stamped (95 V-C1). -/
def zeroBlock : State := block (List.replicate 32 0#32) (List.replicate 6 0#32)

/-- DATA[5] = 0x00010000 on the stamp of all 0 (95 V-R12). -/
def flippedBlock : State := block (oneRow 5 0x00010000#32) (List.replicate 6 0#32)

/-- What a test looks at: FLIPS, VALID, the words of DATA, and those of the fresh fingerprint where they are written. -/
def seen : Host.Outcome State Fault Refusal → Option (Word × Bool × Option (List Word) × Option (List Word))
  | .next t => some (t.flips, t.valid, (t.mem.readWords (dataOff 0) 32).toOption, (t.mem.readWords (fpfOff 0) 6).toOption)
  | .fault _ => none
  | .refused _ => none

/-! ## The commands on the spec's vectors -/

/-- 95 V-C7: bit (5, 15), slash line 20, back-slash line 21. -/
theorem test_compute_one_bit : seen (exec .compute (block (oneRow 5 0x00010000#32) [])) =
    some (0#32, false, some (oneRow 5 0x00010000#32),
      some [0x00000020#32, 0x00010000#32, 0x00000800#32, 0x00000000#32, 0x00000400#32, 0x00000000#32]) := by
  rw [exec_eq_lineExec]; decide +kernel

/-- 95 V-C6: bit (31, 0), whose back-slash line 62 only the full reversal keeps. -/
theorem test_compute_last_line : seen (exec .compute (block (oneRow 31 0x80000000#32) [])) =
    some (0#32, false, some (oneRow 31 0x80000000#32),
      some [0x80000000#32, 0x80000000#32, 0x00000001#32, 0x00000000#32, 0x00000000#32, 0x00000002#32]) := by
  rw [exec_eq_lineExec]; decide +kernel

/-- 95 V-K6: the stamp of all 0 on DATA all 0 is valid. -/
theorem test_check_valid : (seen (exec .check zeroBlock)).map (·.2.1) = some true := by
  rw [exec_eq_lineExec]; decide +kernel

/-- 95 V-K3: bit 0 of BD[1] set makes CHECK report invalid. -/
theorem test_check_unused_slot :
    (seen (exec .check (block (List.replicate 32 0#32) [0#32, 0#32, 0#32, 0#32, 0#32, 1#32]))).map (·.2.1) = some false := by
  rw [exec_eq_lineExec]; decide +kernel

/-- 95 V-R12: the flipped bit is restored, FLIPS is 1, VALID and the fresh window are not written. -/
theorem test_repair_one_bit : seen (exec .repair flippedBlock) =
    some (1#32, false, some (List.replicate 32 0#32), none) := by
  rw [exec_eq_lineExec]; decide +kernel

/-- 95 P3, V-R6: two flips in one row cancel in H, so nothing is flipped. -/
theorem test_repair_two_bits_of_a_row :
    seen (exec .repair (block (oneRow 7 0x08400000#32) (List.replicate 6 0#32))) =
      some (0#32, false, some (oneRow 7 0x08400000#32), none) := by
  rw [exec_eq_lineExec]; decide +kernel

/-! ## The interface on the spec's vectors -/

/-- 95 V-I1 to V-I7, V-I11 to V-I13. -/
theorem test_reads_after_reset :
    memRead (State.resetWith oneBlock) 0x0004 4 = .ok 0x00000000#32 ∧
    memRead (State.resetWith oneBlock) 0x0008 4 = .ok 0x00000000#32 ∧
    memRead (State.resetWith oneBlock) 0x1000 4 = .error (.unwritten 0x1000) ∧
    memRead (State.resetWith oneBlock) 0x3000 4 = .error (.unwritten 0x3000) ∧
    memRead (State.resetWith oneBlock) 0x0004 1 = .error (.badAccess 0x0004) ∧
    memRead (State.resetWith oneBlock) 0x1002 4 = .error (.badAccess 0x1002) ∧
    memRead (State.resetWith oneBlock) 0x0000 4 = .error (.badAccess 0x0000) ∧
    memRead (State.resetWith oneBlock) 0x2018 4 = .error (.badAccess 0x2018) ∧
    memRead (State.resetWith oneBlock) 0x000C 4 = .error (.badAccess 0x000C) := ⟨rfl, rfl, rfl, rfl, rfl, rfl, rfl, rfl, rfl⟩

/-- 95 V-I8 to V-I11, V-I14. -/
theorem test_writes_after_reset :
    memWrite (State.resetWith oneBlock) 0x0004 4 0#32 = .fault (.badAccess 0x0004) ∧
    memWrite (State.resetWith oneBlock) 0x0008 4 0#32 = .fault (.badAccess 0x0008) ∧
    memWrite (State.resetWith oneBlock) 0x3000 4 0#32 = .fault (.badAccess 0x3000) ∧
    memWrite (State.resetWith oneBlock) 0x1080 4 0#32 = .fault (.badAccess 0x1080) ∧
    memWrite (State.resetWith oneBlock) 0x0000 4 0#32 = .refused .reservedCommand := ⟨rfl, rfl, rfl, rfl, rfl⟩

/-- 95 V-I18 to V-I20: while BUSY = 1, the BUSY check before decoding. -/
theorem test_busy_hazards :
    memRead (zeroBlock.setPending .compute) 0x1000 4 = .error (.busyHazard 0x1000) ∧
    memWrite (zeroBlock.setPending .compute) 0x0000 4 2#32 = .fault (.busyHazard 0x0000) ∧
    memWrite (zeroBlock.setPending .compute) 0x0000 4 0#32 = .fault (.busyHazard 0x0000) := ⟨rfl, rfl, rfl⟩

/-- 95 V-I17: BUSY reads 1; VALID is a draw, of which nothing is said. -/
theorem test_status_while_busy : (zeroBlock.setPending .compute).status.getLsbD 0 = true :=
  (statusWord_bits _ _).1

/-- The fault a step ends in. -/
def faultOf : Host.Outcome State Fault Refusal → Option Fault
  | .next _ => none
  | .fault f => some f
  | .refused _ => none

/-- 95 V-I22: DATA[31] unwritten. -/
theorem test_compute_faults_on_the_last_word :
    faultOf (step ((block (List.replicate 31 0#32) []).setPending .compute)) = some (.unwritten 0x107C) := by
  decide +kernel

/-- 95 V-I23: CHECK with no stored word written. -/
theorem test_check_faults_on_the_first_stored_word :
    faultOf (step ((block (List.replicate 32 0#32) []).setPending .check)) = some (.unwritten 0x2000) := by decide +kernel

/-- 95 V-I24, V-I25: reset discards a command in flight and the storage. -/
theorem test_reset_discards :
    step { zeroBlock.setPending .compute with turns := [.reset] } = .next (State.resetWith oneBlock) := rfl

/-- A program that reads a name nothing has bound goes on, and its refusal mark stays clear (60 R131, log 14). -/
theorem test_unbound_name_is_no_refusal :
    (settle { zeroBlock with turns := [.host], prog := [.set 0 (.name 1)] }
      (step { zeroBlock with turns := [.host], prog := [.set 0 (.name 1)] })).refusalMark = none := rfl

/-- Nibble-parity examples of 95 section 3. -/
theorem test_nibble_parity :
    nibbleParity 0x00000000#32 = false ∧ nibbleParity 0x00000007#32 = true ∧ nibbleParity 0x80000001#32 = false ∧
    nibbleParity 0xFFFFFFFF#32 = false ∧ nibbleParity 0x9E3779B9#32 = false ∧ nibbleParity 0x12345678#32 = true := by decide

/-- The step after reset with a command placed: DATA is unwritten, so each command faults as 95 V-I22 does (log 18). -/
theorem test_placed_commands_run :
    step (State.reset.withFetchWord 32 1) = .fault (.unwritten 0x1000) ∧
    step (State.reset.withFetchWord 32 2) = .fault (.unwritten 0x1000) ∧
    step (State.reset.withFetchWord 32 3) = .fault (.unwritten 0x1000) ∧
    step (State.reset.withFetchWord 32 0) = .refused .reservedCommand := ⟨rfl, rfl, rfl, rfl⟩

/-! ## States that meet the statements' hypotheses -/

theorem zeroBlock_dataWritten : zeroBlock.DataWritten := by unfold State.DataWritten; decide +kernel

/-- DATA all 0, not yet stamped: what COMPUTE reads in the boot order's step 2 (70 R150). -/
def unstampedBlock : State := block (List.replicate 32 0#32) []

theorem unstampedBlock_dataWritten : unstampedBlock.DataWritten := by unfold State.DataWritten; decide +kernel

theorem zeroBlock_storedWritten : zeroBlock.StoredWritten := by unfold State.StoredWritten; decide +kernel

theorem zeroBlock_consistent : zeroBlock.Consistent := by
  refine ⟨zeroBlock_dataWritten, zeroBlock_storedWritten, ?_⟩
  rw [State.fpOfData, freshFp_eq_lineFp]; decide +kernel

theorem flippedBlock_dataWritten : flippedBlock.DataWritten := by unfold State.DataWritten; decide +kernel

theorem flippedBlock_storedWritten : flippedBlock.StoredWritten := by unfold State.StoredWritten; decide +kernel

theorem flippedBlock_inconsistent : flippedBlock.storedOf ≠ flippedBlock.fpOfData := by
  rw [State.fpOfData, freshFp_eq_lineFp]; decide +kernel

/-- A command that answers on the block of all 0. -/
theorem zeroBlock_answers (i : Instr) : ∃ t, exec i zeroBlock = .next t := by
  cases i
  · exact ⟨_, execCompute_eq_next.2 ⟨zeroBlock_dataWritten, rfl⟩⟩
  · exact ⟨_, execCheck_eq_next.2 ⟨zeroBlock_dataWritten, zeroBlock_storedWritten, rfl⟩⟩
  · exact ⟨_, execRepair_eq_next.2 ⟨zeroBlock_dataWritten, zeroBlock_storedWritten, rfl⟩⟩

/-- The machine of `block` with a command in flight and the engine to move. -/
def inFlight (s : State) (i : Instr) : State := { s.setPending i with turns := [.engine] }

/-- The machine of `block` with a host program and the host to move. -/
def running (s : State) (ops : List HostOp) : State := { s with turns := [.host], prog := ops }

/-- The decoder's two sides: a word of the table, and reserved words by RSVD and by OP. -/
theorem witness_DecoderSelectsExactlyTheTableWords :
    0x00000003#32 = encode .repair ∧ rsvdField 0x80000001#32 ≠ 0#24 ∧ opField 0x00000004#32 ∉ [0x01#8, 0x02#8, 0x03#8] := by
  decide

theorem witness_CommandWriteIssuesRefusesOrFaults :
    (zeroBlock.setPending .check).busy = true ∧ zeroBlock.busy = false ∧ decode 0x00000003#32 = .ok .repair ∧
    decode 0x00000000#32 = .error .reservedCommand := ⟨rfl, rfl, rfl, rfl⟩

theorem witness_ReservedWordIsRefusedAndMarks :
    zeroBlock.busy = false ∧ rsvdField 0x00000101#32 ≠ 0#24 ∧
    (opField 0x00000000#32 ≠ 0x01#8 ∧ opField 0x00000000#32 ≠ 0x02#8 ∧ opField 0x00000000#32 ≠ 0x03#8) := by
  refine ⟨rfl, ?_⟩; decide

/-- An issue, a completion that answers, one that faults, and an engine turn with nothing in flight. -/
theorem witness_StepIssuesThenRunsTheDecodedCommand :
    (decode 0x00000001#32 = .ok .compute ∧ (running zeroBlock [.write 0x0000 4 (.const 1#32)]).busy = false ∧
      (running zeroBlock [.write 0x0000 4 (.const 1#32)]).nextTurn = .host) ∧
    ((inFlight zeroBlock .compute).busy = true ∧ (inFlight zeroBlock .compute).pend = some .compute ∧
      (inFlight zeroBlock .compute).nextTurn = .engine ∧
      ∃ u, exec .compute { inFlight zeroBlock .compute with turns := [] } = .next u) ∧
    (exec .repair { inFlight (State.resetWith oneBlock) .repair with turns := [] } = .fault (.unwritten 0x1000)) ∧
    ({ zeroBlock with turns := [.engine] }).nextTurn = .engine :=
  ⟨⟨rfl, rfl, rfl⟩, ⟨rfl, rfl, rfl, _, execCompute_eq_next.2 ⟨zeroBlock_dataWritten, rfl⟩⟩, rfl, rfl⟩

theorem witness_PollingNeverPreventsCompletion :
    let s := { zeroBlock.setPending .check with turns := List.replicate 2 .host, prog := [.poll 0] }
    s.turns = List.replicate 2 .host ∧ s.prog = .poll 0 :: [] ∧ s.busy = true ∧ s.pend = some .check ∧ s.DataWritten ∧
      (Instr.check ≠ .compute → s.StoredWritten) :=
  ⟨rfl, rfl, rfl, rfl, zeroBlock_dataWritten, fun _ => zeroBlock_storedWritten⟩

/-- COMPUTE on a block whose stored fingerprint is unwritten. -/
theorem witness_PollingNeverPreventsCompletion_unstamped :
    let s := { unstampedBlock.setPending .compute with turns := List.replicate 2 .host, prog := [.poll 0] }
    s.turns = List.replicate 2 .host ∧ s.prog = .poll 0 :: [] ∧ s.busy = true ∧ s.pend = some .compute ∧ s.DataWritten ∧
      (Instr.compute ≠ .compute → s.StoredWritten) ∧ s.mem.readWord (fpsOff 0) = none :=
  ⟨rfl, rfl, rfl, rfl, unstampedBlock_dataWritten, fun h => absurd rfl h, by decide +kernel⟩

theorem witness_OnlyIssueCompletionAndResetChangeBusy :
    ∃ t, step (running zeroBlock [cmdOp .compute]) = .next t ∧ t.busy ≠ (running zeroBlock [cmdOp .compute]).busy :=
  ⟨_, rfl, by decide⟩

theorem witness_OnlyCheckAndResetChangeValid :
    ∃ t, step (inFlight zeroBlock .check) = .next t ∧ t.valid ≠ (inFlight zeroBlock .check).valid := by
  have h := execCheck_eq_next (s := zeroBlock.setPending .check).2 ⟨zeroBlock_dataWritten, zeroBlock_storedWritten, rfl⟩
  refine ⟨_, by rw [step_engine rfl]; exact congrArg finishCommand h, ?_⟩
  have he : (zeroBlock.setPending .check).storedOf = (zeroBlock.setPending .check).fpOfData := zeroBlock_consistent.2.2
  rw [decide_eq_true he]; decide

theorem witness_OnlyRepairAndResetChangeFlips :
    ∃ t, step (inFlight flippedBlock .repair) = .next t ∧ t.flips ≠ (inFlight flippedBlock .repair).flips := by
  have h := execRepair_eq_next (s := flippedBlock.setPending .repair).2
    ⟨flippedBlock_dataWritten, flippedBlock_storedWritten, rfl⟩
  refine ⟨_, by rw [step_engine rfl]; exact congrArg finishCommand h, ?_⟩
  rw [State.flipped, State.fpOfData, freshFp_eq_lineFp]
  decide +kernel

/-- A host write of the last DATA word, of the last stored word, and a COMPUTE that writes the first fresh word. -/
theorem witness_OnlyHostWritesAndRepairChangeData :
    ∃ t, step (running (State.resetWith oneBlock) [.write 0x107C 4 (.const 1#32)]) = .next t ∧
      dataOff 0 ≤ 0x107C ∧ 0x107C < dataEnd oneBlock ∧
      t.mem.readByte 0x107C ≠ (running (State.resetWith oneBlock) []).mem.readByte 0x107C :=
  ⟨_, rfl, by decide, by decide, by decide⟩

theorem witness_EngineNeverWritesTheStoredFingerprint :
    ∃ t, step (running (State.resetWith oneBlock) [.write 0x2014 4 (.const 1#32)]) = .next t ∧
      fpsOff 0 ≤ 0x2014 ∧ 0x2014 < fpsEnd oneBlock ∧
      t.mem.readByte 0x2014 ≠ (running (State.resetWith oneBlock) []).mem.readByte 0x2014 :=
  ⟨_, rfl, by decide, by decide, by decide⟩

theorem witness_OnlyComputeAndResetChangeTheFreshFingerprint :
    ∃ t, step (inFlight zeroBlock .compute) = .next t ∧ fpfOff 0 ≤ 0x3000 ∧ 0x3000 < fpfEnd oneBlock ∧
      t.mem.readByte 0x3000 ≠ (inFlight zeroBlock .compute).mem.readByte 0x3000 := by
  have h := execCompute_eq_next (s := zeroBlock.setPending .compute).2 ⟨zeroBlock_dataWritten, rfl⟩
  refine ⟨_, by rw [step_engine rfl]; exact congrArg finishCommand h, by decide, by decide, ?_⟩
  have h1 := readWord_writeFresh (s := zeroBlock.setPending .compute) (k := 0) (by decide)
  have h2 := readWord_eq_some.1 h1 0 (by decide)
  intro e
  have h3 := h2.symm.trans e
  have h4 : (inFlight zeroBlock .compute).mem.readByte 0x3000 = none := by decide +kernel
  rw [h4] at h3
  exact absurd h3 (by simp)

theorem witness_MarksAreSticky :
    (zeroBlock.markFault (.badAccess 0x0000)).faultMark = some (.badAccess 0x0000) ∧
    (zeroBlock.markRefusal .reservedCommand).refusalMark = some .reservedCommand := ⟨rfl, rfl⟩

theorem witness_AFaultedOrRefusedStepHasNoOtherEffect :
    step (running zeroBlock [.read 0x0000 4 0]) = .fault (.badAccess 0x0000) ∧ zeroBlock.faultMark = none ∧
    step (running zeroBlock [.write 0x0000 4 (.const 0#32)]) = .refused .reservedCommand := ⟨rfl, rfl, rfl⟩

/-- An upset of the last DATA word's highest bit, and one of the last stored word's, where the model admits them. -/
theorem witness_UpsetsAreThoseTheModelAdmits :
    let s := { zeroBlock with cfg := { oneBlock with upsetModel := .single }, turns := [.upset 0x107C 31] }
    s.nextTurn = .upset 0x107C 31 ∧ s.cfg.upsetModel = .single ∧ s.busy = false ∧ isDataWord s.cfg 0x107C ∧
      isStoredWord s.cfg 0x2014 ∧ (31 : Nat) < 32 ∧ s.mem.readWord 0x107C = some 0#32 ∧ zeroBlock.cfg.upsetModel = .none :=
  ⟨rfl, rfl, rfl, ⟨31, by decide, rfl⟩, ⟨5, by decide, rfl⟩, by decide, by decide +kernel, rfl⟩

/-- Upsets that pass: by default, while BUSY = 1, at a misaligned offset, a control, a fresh and a reserved one, of bit 32, and
of an unwritten word. -/
theorem witness_UpsetsAreThoseTheModelAdmits_passing :
    let c := { oneBlock with upsetModel := .single }
    ({ zeroBlock with turns := [.upset 0x1002 0] }).nextTurn = .upset 0x1002 0 ∧ zeroBlock.cfg.upsetModel = .none ∧
    (zeroBlock.setPending .check).busy = true ∧
    (∀ off ∈ [0x1002, 0x0008, 0x3000, 0x1080, 0x2018], ¬ (isDataWord c off ∨ isStoredWord c off)) ∧
    32 ≤ 32 ∧ (State.resetWith c).mem.readWord 0x1000 = none := by
  simp only [isDataWord_iff, isStoredWord_iff]
  exact ⟨rfl, rfl, rfl, by decide, by decide, rfl⟩

theorem reset_inv : (State.resetWith oneBlock).Inv := by
  refine ⟨List.Pairwise.nil, ?_, ?_, ?_, ?_, ?_, rfl⟩ <;> simp [Memory.readByte, Memory.readWord, State.freshFpWord]

/-- Just after reset, about to take a step that goes on. -/
theorem witness_EveryStepKeepsTheInvariant :
    ∃ s t, s.Inv ∧ step s = .next t ∧ s ≠ t :=
  ⟨running (State.resetWith oneBlock) [.write 0x1000 4 (.const 1#32)], _,
    ⟨reset_inv.1, reset_inv.2, reset_inv.3, reset_inv.4, reset_inv.5, reset_inv.6, rfl⟩, rfl, by decide⟩

theorem witness_ResetStateReadsAsTheSpecSays :
    isDataWord oneBlock 0x1000 ∧ isStoredWord oneBlock 0x2014 ∧ isFreshWord oneBlock 0x3000 :=
  ⟨⟨0, by decide, rfl⟩, ⟨5, by decide, rfl⟩, ⟨0, by decide, rfl⟩⟩

theorem witness_ResetStepFromAnyState : ({ zeroBlock.setPending .repair with turns := [.reset] }).nextTurn = .reset := rfl

/-- A width, and offsets each direction does not name: CMD for a read, the first past DATA and past the fingerprints, a
misaligned one, a read-only one for a write. -/
theorem witness_AccessOutsideTheMapIsBadAccess :
    (2 ≠ 4) ∧ ¬ isReadOffset oneBlock 0x0000 ∧ ¬ isReadOffset oneBlock 0x1080 ∧ ¬ isReadOffset oneBlock 0x2018 ∧
    ¬ isReadOffset oneBlock 0x1002 ∧ ¬ isWriteOffset oneBlock 0x0004 ∧ ¬ isWriteOffset oneBlock 0x3000 := by
  simp only [isReadOffset, isWriteOffset, isDataWord_iff, isStoredWord_iff, isFreshWord_iff]
  decide

/-- Both values of BUSY; the first and the last word of a window, written and unwritten. -/
theorem witness_ReadReturnsTheNamedWord :
    (zeroBlock.setPending .check).busy = true ∧ isReadOffset oneBlock 0x0008 ∧ isDataWord oneBlock 0x107C ∧
    isFreshWord oneBlock 0x3014 ∧ zeroBlock.busy = false ∧ zeroBlock.mem.readWord 0x107C = some 0#32 ∧
    zeroBlock.mem.readWord 0x3014 = none :=
  ⟨rfl, .inr (.inl rfl), ⟨31, by decide, rfl⟩, ⟨5, by decide, rfl⟩, rfl, by decide +kernel, by decide +kernel⟩

theorem witness_WriteStoresOnlyTheAddressedWord :
    isDataWord oneBlock 0x1000 ∧ isDataWord oneBlock 0x107C ∧ isStoredWord oneBlock 0x2000 ∧ isStoredWord oneBlock 0x2014 ∧
    (zeroBlock.setPending .check).busy = true ∧ zeroBlock.busy = false :=
  ⟨⟨0, by decide, rfl⟩, ⟨31, by decide, rfl⟩, ⟨0, by decide, rfl⟩, ⟨5, by decide, rfl⟩, rfl, rfl⟩

theorem witness_WhileBusyOnlyStatusIsReadable :
    (zeroBlock.setPending .check).busy = true ∧ isReadOffset oneBlock 0x3014 ∧ (0x3014 ≠ 0x0004) ∧
    isWriteOffset oneBlock 0x0000 ∧ isWriteOffset oneBlock 0x2014 :=
  ⟨rfl, .inr (.inr (.inr (.inr ⟨5, by decide, rfl⟩))), by decide, .inl rfl, .inr (.inr ⟨5, by decide, rfl⟩)⟩

theorem witness_HostReadsHaveNoSideEffect :
    ∃ t, (running zeroBlock [.read 0x107C 4 0]).nextTurn = .host ∧
      (running zeroBlock [.read 0x107C 4 0]).prog = .read 0x107C 4 0 :: [] ∧
      step (running zeroBlock [.read 0x107C 4 0]) = .next t ∧ (running zeroBlock [.read 0x107C 4 0]).busy = false := by
  have hw : zeroBlock.mem.readWord 0x107C = some 0#32 := by decide +kernel
  have hv := memRead_storage (s := { zeroBlock with prog := [.read 0x107C 4 0] }) (off := 0x107C) rfl rfl (.inl rfl) hw
  have h := step_read (s := { zeroBlock with prog := [.read 0x107C 4 0] }) rfl rfl rfl hv
  have h' := (step_host (s := running zeroBlock [.read 0x107C 4 0]) rfl).trans ((step_quiescent rfl rfl).symm.trans h)
  exact ⟨_, rfl, rfl, h', rfl⟩

/-- The first and the last offset of the window, and the addresses just outside it. -/
theorem witness_WindowLiesAtTheEngineBase :
    let c := { oneBlock with engineBase := 0x10000 }
    (0x0000 < 0x4000 ∧ 0x10000 = c.engineBase + 0x0000) ∧ (0x3FFF < 0x4000 ∧ 0x13FFF = c.engineBase + 0x3FFF) ∧
    0x0FFFF < c.engineBase ∧ c.engineBase + 0x4000 ≤ 0x14000 := by decide

/-- A quiescent block with an empty schedule and a program: what the pseudo-instructions' statements ask. -/
theorem witness_RunIssuesAndWaits :
    let s := { zeroBlock with prog := runOps .check 0 ++ [] }
    s.turns = [] ∧ s.busy = false ∧ s.prog = runOps .check 0 ++ [] ∧ s.DataWritten ∧
      (Instr.check ≠ .compute → s.StoredWritten) :=
  ⟨rfl, rfl, rfl, zeroBlock_dataWritten, fun _ => zeroBlock_storedWritten⟩

/-- COMPUTE on a block whose stored fingerprint is unwritten. -/
theorem witness_RunIssuesAndWaits_unstamped :
    let s := { unstampedBlock with prog := runOps .compute 0 ++ [] }
    s.turns = [] ∧ s.busy = false ∧ s.prog = runOps .compute 0 ++ [] ∧ s.DataWritten ∧
      (Instr.compute ≠ .compute → s.StoredWritten) ∧ s.mem.readWord (fpsOff 0) = none :=
  ⟨rfl, rfl, rfl, unstampedBlock_dataWritten, fun h => absurd rfl h, by decide +kernel⟩

/-- The last row and the last stored word, bit 31. -/
theorem witness_FlipFlipsOneBit :
    (zeroBlock.turns = [] ∧ zeroBlock.busy = false ∧ (31 : Nat) < 32) ∧
    (31 < zeroBlock.cfg.R ∧ ({ zeroBlock with prog := flipDataOps 31 31 0 }).prog = flipDataOps 31 31 0 ++ [] ∧
      zeroBlock.mem.readWord (dataOff 31) = some 0#32) ∧
    (5 < zeroBlock.cfg.fpWords ∧ ({ zeroBlock with prog := flipFpOps 5 31 0 }).prog = flipFpOps 5 31 0 ++ [] ∧
      zeroBlock.mem.readWord (fpsOff 5) = some 0#32) :=
  ⟨⟨rfl, rfl, by decide⟩, ⟨by decide, rfl, by decide +kernel⟩, by decide, rfl, by decide +kernel⟩

theorem witness_StampMakesTheBlockConsistent :
    let s := { flippedBlock with prog := stampOps oneBlock 0 ++ [] }
    s.turns = [] ∧ s.busy = false ∧ s.prog = stampOps s.cfg 0 ++ [] ∧ s.DataWritten :=
  ⟨rfl, rfl, rfl, flippedBlock_dataWritten⟩

theorem witness_VerifyReadsTheVerdict :
    let s := { flippedBlock with prog := verifyOps 0 1 ++ [] }
    s.turns = [] ∧ s.busy = false ∧ s.prog = verifyOps 0 1 ++ [] ∧ s.DataWritten ∧ s.StoredWritten :=
  ⟨rfl, rfl, rfl, flippedBlock_dataWritten, flippedBlock_storedWritten⟩

/-- The last row's highest bit, its back-slash line the last one (90 C3). -/
theorem witness_ScrubCorrectsOneFlippedBit :
    let s0 := { zeroBlock with prog := scrubOps 0 1 2 3 ++ [] }
    s0.Consistent ∧ 31 < s0.cfg.R ∧ (31 : Nat) < 32 ∧ (s0.flipDataBit 31 31).turns = [] ∧
      (s0.flipDataBit 31 31).busy = false ∧ (s0.flipDataBit 31 31).prog = scrubOps 0 1 2 3 ++ [] ∧ [0, 1, 2, 3].Nodup :=
  ⟨zeroBlock_consistent, by decide, by decide, rfl, rfl, rfl, by decide⟩

/-- A consistent block, and one that is not: SCRUB's two branches (30 R84). -/
theorem witness_ScrubFollowsTheFirstVerdict :
    let p := scrubOps 0 1 2 3 ++ []
    let a := { zeroBlock with prog := p }
    let b := { flippedBlock with prog := p }
    (a.turns = [] ∧ a.busy = false ∧ a.prog = p ∧ [0, 1, 2, 3].Nodup ∧ a.DataWritten ∧ a.StoredWritten ∧
      a.storedOf = a.fpOfData) ∧
    (b.turns = [] ∧ b.busy = false ∧ b.prog = p ∧ b.DataWritten ∧ b.StoredWritten ∧ b.storedOf ≠ b.fpOfData) :=
  ⟨⟨rfl, rfl, rfl, by decide, zeroBlock_dataWritten, zeroBlock_storedWritten, zeroBlock_consistent.2.2⟩, rfl, rfl, rfl,
    flippedBlock_dataWritten, flippedBlock_storedWritten, flippedBlock_inconsistent⟩

/-- A DATA array of the size `B = 1` fixes, with a bit and lines at the ends of their ranges: what
ProceduresGiveTheLineFingerprint, LinesOfAFamilyPartitionTheBits, FingerprintBitsAreLineParities, FingerprintIsLinear,
OneFlipChangesOneBitPerFamily and LineSizesAreThoseOfTheMatrix ask. -/
theorem witness_parity_statements :
    1 ≤ 1 ∧ (oneRow 31 0x80000000#32).length = 32 * 1 ∧ 31 < 32 * 1 ∧ 62 < LineFamily.slash.lineCount 1 ∧
    62 < LineFamily.backslash.lineCount 1 ∧ 32 * 1 + 30 ≤ 32 * 1 + 30 ∧ ¬ 32 * 1 + 31 ≤ 32 * 1 + 30 := by decide

/-- A stored fingerprint whose unused slot is set, with all words written. -/
theorem witness_UnusedSlotIsZeroAndFailsCheck :
    let s := block (List.replicate 32 0#32) [0#32, 0#32, 0#32, 0#32, 0#32, 1#32]
    s.DataWritten ∧ s.StoredWritten ∧ (s.storedFpWord (3 * s.cfg.B + 2)).getLsbD 0 = true := by
  refine ⟨?_, ?_, ?_⟩
  · unfold State.DataWritten; decide +kernel
  · unfold State.StoredWritten; decide +kernel
  · decide +kernel

/-- The first and the last DATA word as the lowest unwritten one, and the last stored word (95 V-I22, V-I23): what the fault
clauses of ComputeExposesTheFingerprint, CheckRecordsWhetherAllWordsAgree and RepairFaultsOnTheLowestUnwrittenWord ask. -/
theorem witness_unwritten_words :
    ((State.resetWith oneBlock).mem.readWord (dataOff 0) = none ∧ 0 < oneBlock.R) ∧
    (let s := block (List.replicate 31 0#32) []
     31 < s.cfg.R ∧ (∀ q < 31, (s.mem.readWord (dataOff q)).isSome) ∧ s.mem.readWord (dataOff 31) = none) ∧
    (let s := block (List.replicate 32 0#32) (List.replicate 5 0#32)
     5 < s.cfg.fpWords ∧ (∀ r < s.cfg.R, (s.mem.readWord (dataOff r)).isSome) ∧
       (∀ q < 5, (s.mem.readWord (fpsOff q)).isSome) ∧ s.mem.readWord (fpsOff 5) = none) :=
  ⟨⟨rfl, by decide⟩, ⟨by decide, by decide +kernel, by decide +kernel⟩, by decide, by decide +kernel, by decide +kernel,
    by decide +kernel⟩

theorem witness_ComputeExposesTheFingerprint : zeroBlock.DataWritten := zeroBlock_dataWritten

theorem witness_ComputeWritesOnlyTheFreshWindow :
    (∃ t, exec .compute zeroBlock = .next t) ∧ (inFlight zeroBlock .compute).busy = true ∧
    (inFlight zeroBlock .compute).pend = some .compute ∧ (inFlight zeroBlock .compute).nextTurn = .engine ∧
    ∃ t, step (inFlight zeroBlock .compute) = .next t := by
  have h := execCompute_eq_next (s := zeroBlock.setPending .compute).2 ⟨zeroBlock_dataWritten, rfl⟩
  have h' := (step_engine (s := inFlight zeroBlock .compute) rfl).trans (congrArg finishCommand h)
  exact ⟨zeroBlock_answers .compute, rfl, rfl, rfl, _, h'⟩

theorem witness_ComputeTwiceIsComputeOnce : zeroBlock.mem.wf ∧ ∃ t, exec .compute zeroBlock = .next t :=
  ⟨by unfold Memory.wf; decide +kernel, zeroBlock_answers .compute⟩

theorem witness_CheckRecordsWhetherAllWordsAgree : flippedBlock.DataWritten ∧ flippedBlock.StoredWritten :=
  ⟨flippedBlock_dataWritten, flippedBlock_storedWritten⟩

theorem witness_StampedBlockChecksValid : flippedBlock.DataWritten := flippedBlock_dataWritten

/-- The last row's highest and the first row's lowest bit. -/
theorem witness_EverySingleDataFlipIsDetected :
    zeroBlock.Consistent ∧ 31 < zeroBlock.cfg.R ∧ (31 : Nat) < 32 ∧ 0 < zeroBlock.cfg.R :=
  ⟨zeroBlock_consistent, by decide, by decide, by decide⟩

/-- Bit 0 of BD[B], the last stored word. -/
theorem witness_EverySingleStoredFlipIsDetected : zeroBlock.Consistent ∧ 5 < zeroBlock.cfg.fpWords ∧ (0 : Nat) < 32 :=
  ⟨zeroBlock_consistent, by decide, by decide⟩

theorem witness_EveryOddNumberOfDataFlipsIsDetected :
    zeroBlock.Consistent ∧ flippedBlock.cfg = zeroBlock.cfg ∧ flippedBlock.DataWritten ∧ flippedBlock.StoredWritten ∧
    flippedBlock.storedOf = zeroBlock.storedOf ∧
    xorBelow zeroBlock.cfg.R (fun r => parity32 (zeroBlock.dataRow r ^^^ flippedBlock.dataRow r)) = true :=
  ⟨zeroBlock_consistent, rfl, flippedBlock_dataWritten, flippedBlock_storedWritten, by decide +kernel, by decide +kernel⟩

theorem witness_RepairFlipsExactlyTheLocatedBits :
    flippedBlock.DataWritten ∧ flippedBlock.StoredWritten ∧ 5 < flippedBlock.cfg.R ∧ (15 : Nat) < 32 :=
  ⟨flippedBlock_dataWritten, flippedBlock_storedWritten, by decide, by decide⟩

theorem witness_FlipsCountsTheChangedBits : ∃ t, exec .repair flippedBlock = .next t :=
  ⟨_, execRepair_eq_next.2 ⟨flippedBlock_dataWritten, flippedBlock_storedWritten, rfl⟩⟩

theorem witness_OrderOfFlipsDoesNotMatter : [((0, 31) : Nat × Nat), (31, 0), (0, 31)].Perm [(31, 0), (0, 31), (0, 31)] := by
  decide

theorem witness_RepairWritesOnlyDataAndFlips : ∃ t, exec .repair flippedBlock = .next t := witness_FlipsCountsTheChangedBits

/-- Bit (31, 0), whose back-slash line is `R + 30` (90 C3). -/
theorem witness_RepairCorrectsAnySingleFlip : zeroBlock.Consistent ∧ 31 < zeroBlock.cfg.R ∧ (31 : Nat) < 32 :=
  ⟨zeroBlock_consistent, by decide, by decide⟩

theorem witness_RepairLeavesAConsistentBlockAlone : zeroBlock.Consistent := zeroBlock_consistent

/-- 95 V-R10: one stored word of H is changed, the other families agree. -/
theorem witness_StoredCorruptionOfOneFamilyFlipsNothing :
    let s := block (List.replicate 32 0#32) [1#32, 0#32, 0#32, 0#32, 0#32, 0#32]
    s.DataWritten ∧ s.StoredWritten ∧ s.storedOf.v = s.fpOfData.v ∧ s.storedOf.h ≠ s.fpOfData.h := by
  refine ⟨?_, ?_, ?_, ?_⟩
  · unfold State.DataWritten; decide +kernel
  · unfold State.StoredWritten; decide +kernel
  · rw [State.fpOfData, freshFp_eq_lineFp]; decide +kernel
  · rw [State.fpOfData, freshFp_eq_lineFp]; decide +kernel

/-- A command that answers and one that faults. -/
theorem witness_DiagnosticEventsAffectNothing :
    (∃ t, exec .repair flippedBlock = .next t) ∧
    exec .repair (State.resetWith oneBlock) = .fault (.unwritten 0x1000) :=
  ⟨witness_FlipsCountsTheChangedBits, rfl⟩

end Sys2Proof.Machine
end

section
/-! SUPPORT. The platform's parameters, ENGINE_BASE and BUS_BYTE_ORDER (00 R12, 20 R56): the host's accesses by address, and
each operation of a step on a state with other values of the two. -/

namespace Sys2Proof.Machine

/-! ## Accesses by address (00 R12, 20 R45) -/

theorem offsetOf_base_add {c : Config} {off : Nat} (h : off < 0x4000) : offsetOf c (c.engineBase + off) = some off := by
  rw [offsetOf, if_pos (by omega), Nat.add_sub_cancel_left]

theorem offsetOf_outside {c : Config} {addr : Nat} (h : addr < c.engineBase ∨ c.engineBase + 0x4000 ≤ addr) :
    offsetOf c addr = none := by
  rw [offsetOf, if_neg (by omega)]

/-- Settles O25: the offset of an address is its distance from ENGINE_BASE inside the window, and no offset outside it. -/
theorem windowLiesAtTheEngineBase : Obligations.WindowLiesAtTheEngineBase := by
  intro s addr width v
  constructor
  · rintro off hoff rfl
    simp only [busRead, busWrite, offsetOf_base_add hoff, and_self]
  · intro hout
    simp only [busRead, busWrite, offsetOf_outside hout, and_self]

/-! ## Outcomes -/

@[simp] theorem mapNext_next (f : State → State) (t : State) : mapNext f (.next t) = .next (f t) := rfl
@[simp] theorem mapNext_fault (f : State → State) (e : Fault) : mapNext f (.fault e) = .fault e := rfl
@[simp] theorem mapNext_refused (f : State → State) (r : Refusal) : mapNext f (.refused r) = .refused r := rfl

section
variable (s : State) (base : Nat) (order : ByteOrder)

/-! ## What the two parameters leave alone -/

@[simp] theorem State.withPlatform_mem : (s.withPlatform base order).mem = s.mem := rfl
@[simp] theorem State.withPlatform_busy : (s.withPlatform base order).busy = s.busy := rfl
@[simp] theorem State.withPlatform_pend : (s.withPlatform base order).pend = s.pend := rfl
@[simp] theorem State.withPlatform_prog : (s.withPlatform base order).prog = s.prog := rfl
@[simp] theorem State.withPlatform_names : (s.withPlatform base order).names = s.names := rfl
@[simp] theorem State.withPlatform_cfg_B : (s.withPlatform base order).cfg.B = s.cfg.B := rfl
@[simp] theorem State.withPlatform_cfg_R : (s.withPlatform base order).cfg.R = s.cfg.R := rfl
@[simp] theorem State.withPlatform_cfg_upsetModel :
    (s.withPlatform base order).cfg.upsetModel = s.cfg.upsetModel := rfl
@[simp] theorem State.withPlatform_cfg_events : (s.withPlatform base order).cfg.events = s.cfg.events := rfl
@[simp] theorem State.nextTurn_withPlatform : (s.withPlatform base order).nextTurn = s.nextTurn := rfl

@[simp] theorem regionOf_withPlatform (off : Nat) : regionOf (s.withPlatform base order).cfg off = regionOf s.cfg off := rfl
@[simp] theorem writable_withPlatform (off width : Nat) :
    writable (s.withPlatform base order).cfg off width = writable s.cfg off width := rfl
@[simp] theorem memRead_withPlatform (off width : Nat) :
    memRead (s.withPlatform base order) off width = memRead s off width := rfl
@[simp] theorem State.readData_withPlatform : (s.withPlatform base order).readData = s.readData := rfl
@[simp] theorem State.readBlock_withPlatform : (s.withPlatform base order).readBlock = s.readBlock := rfl

/-! ## The commands (30 R76) -/

@[simp] theorem State.writeData_withPlatform (D : List Word) :
    (s.withPlatform base order).writeData D = (s.writeData D).withPlatform base order := rfl
@[simp] theorem State.setFlips_withPlatform (n : Nat) :
    (s.withPlatform base order).setFlips n = (s.setFlips n).withPlatform base order := rfl

@[simp] theorem State.emitEvents_withPlatform (ps : List (Nat × Nat)) :
    (s.withPlatform base order).emitEvents ps = (s.emitEvents ps).withPlatform base order := by
  simp only [State.emitEvents, State.withPlatform_cfg_events]
  cases s.cfg.events <;> rfl

theorem execCompute_withPlatform :
    execCompute (s.withPlatform base order) = mapNext (·.withPlatform base order) (execCompute s) := by
  simp only [execCompute, State.readData_withPlatform]
  cases s.readData <;> rfl

theorem execCheck_withPlatform :
    execCheck (s.withPlatform base order) = mapNext (·.withPlatform base order) (execCheck s) := by
  simp only [execCheck, State.readBlock_withPlatform]
  cases s.readBlock <;> rfl

theorem execRepair_withPlatform :
    execRepair (s.withPlatform base order) = mapNext (·.withPlatform base order) (execRepair s) := by
  simp only [execRepair, State.readBlock_withPlatform, State.withPlatform_cfg_B, State.withPlatform_cfg_R]
  cases s.readBlock with
  | error f => rfl
  | ok block => simp

theorem exec_withPlatform (i : Instr) :
    exec i (s.withPlatform base order) = mapNext (·.withPlatform base order) (exec i s) := by
  cases i with
  | compute => exact execCompute_withPlatform s base order
  | check => exact execCheck_withPlatform s base order
  | repair => exact execRepair_withPlatform s base order

/-! ## Host accesses (20 R53, R54) -/

theorem State.afterRead_withPlatform (off : Nat) :
    (s.withPlatform base order).afterRead off = (s.afterRead off).withPlatform base order := by
  rw [State.afterRead, State.afterRead, apply_ite (State.withPlatform · base order)]; rfl

@[simp] theorem State.writeStorage_withPlatform (off : Nat) (w : Word) :
    (s.withPlatform base order).writeStorage off w = (s.writeStorage off w).withPlatform base order := rfl

theorem issueCommand_withPlatform (w : Word) :
    issueCommand (s.withPlatform base order) w = mapNext (·.withPlatform base order) (issueCommand s w) := by
  cases hb : s.busy with
  | true => simp [issueCommand, hb]
  | false =>
    simp only [issueCommand, State.withPlatform_busy, hb]
    cases decode w <;> rfl

theorem memWrite_withPlatform (off width : Nat) (v : Word) :
    memWrite (s.withPlatform base order) off width v = mapNext (·.withPlatform base order) (memWrite s off width v) := by
  by_cases hw : writable s.cfg off width = true
  · by_cases hc : regionOf s.cfg off = .cmd
    · simp [memWrite, hw, hc, issueCommand_withPlatform]
    · cases hb : s.busy <;> simp [memWrite, hw, hc, hb]
  · simp [memWrite, hw]

/-! ## The agents' turns -/

theorem hostRead_withPlatform (off width : Nat) (x : HostName) (nxt : Word → List HostOp) :
    hostRead (s.withPlatform base order) off width x nxt =
      mapNext (·.withPlatform base order) (hostRead s off width x nxt) := by
  simp only [hostRead, memRead_withPlatform, State.afterRead_withPlatform]
  cases memRead s off width <;> rfl

theorem hostWrite_withPlatform (off width : Nat) (e : HostExpr) (rest : List HostOp) :
    hostWrite (s.withPlatform base order) off width e rest =
      mapNext (·.withPlatform base order) (hostWrite s off width e rest) := by
  simp only [hostWrite, memWrite_withPlatform, State.withPlatform_names]
  cases memWrite s off width (evalExpr s.names e) <;> rfl

theorem hostTurn_withPlatform :
    hostTurn (s.withPlatform base order) = mapNext (·.withPlatform base order) (hostTurn s) := by
  simp only [hostTurn, State.withPlatform_prog]
  split
  · rfl
  · exact hostRead_withPlatform ..
  · exact hostWrite_withPlatform ..
  · exact hostRead_withPlatform ..
  · rfl
  · rfl

theorem finishCommand_mapNext_withPlatform (o : Host.Outcome State Fault Refusal) :
    finishCommand (mapNext (·.withPlatform base order) o) = mapNext (·.withPlatform base order) (finishCommand o) := by
  cases o <;> rfl

theorem complete_withPlatform :
    complete (s.withPlatform base order) = mapNext (·.withPlatform base order) (complete s) := by
  simp only [complete, State.withPlatform_pend]
  split
  · rw [exec_withPlatform, finishCommand_mapNext_withPlatform]
  · rfl

theorem engineTurn_withPlatform :
    engineTurn (s.withPlatform base order) = mapNext (·.withPlatform base order) (engineTurn s) := by
  cases hb : s.busy with
  | true => simp [engineTurn, hb, complete_withPlatform]
  | false => simp [engineTurn, hb]

theorem upsetTurn_withPlatform (off bit : Nat) :
    upsetTurn (s.withPlatform base order) off bit = (upsetTurn s off bit).withPlatform base order := by
  rw [upsetTurn, upsetTurn, apply_ite (State.withPlatform · base order)]; rfl

theorem runTurn_withPlatform (t : Turn) :
    runTurn t (s.withPlatform base order) = mapNext (·.withPlatform base order) (runTurn t s) := by
  cases t with
  | host => exact hostTurn_withPlatform s base order
  | engine => exact engineTurn_withPlatform s base order
  | reset => rfl
  | upset off bit => exact congrArg Host.Outcome.next (upsetTurn_withPlatform s base order off bit)

end

/-- Settles O26: the turn a step takes is the same, and each agent's turn commutes with a change of the two parameters. -/
theorem stepsDoNotReadThePlatformParameters : Obligations.StepsDoNotReadThePlatformParameters := by
  intro s base order
  simp only [step, State.nextTurn_withPlatform]
  exact runTurn_withPlatform s.dropTurn base order s.nextTurn

end Sys2Proof.Machine
end

section
/-! SUPPORT. What a step can do to the fields of State that are the spec's (10 R20): one case for each thing an agent's turn
does, with the operation or the command that did it. -/

namespace Sys2Proof.Machine

/-! ## States that agree on the spec's fields -/

/-- `t` holds what `s` holds in every field that is the spec's; the host's program, the schedule and the model's own counters
may differ. -/
structure State.SameEngine (s t : State) : Prop where
  cfg : t.cfg = s.cfg
  mem : t.mem = s.mem
  busy : t.busy = s.busy
  valid : t.valid = s.valid
  flips : t.flips = s.flips
  pend : t.pend = s.pend
  faultMark : t.faultMark = s.faultMark
  refusalMark : t.refusalMark = s.refusalMark

theorem State.SameEngine.trans {s t u : State} (h : s.SameEngine t) (h' : t.SameEngine u) : s.SameEngine u :=
  ⟨h'.cfg.trans h.cfg, h'.mem.trans h.mem, h'.busy.trans h.busy, h'.valid.trans h.valid, h'.flips.trans h.flips,
    h'.pend.trans h.pend, h'.faultMark.trans h.faultMark, h'.refusalMark.trans h.refusalMark⟩

theorem State.sameEngine_dropTurn (s : State) : s.SameEngine s.dropTurn := ⟨rfl, rfl, rfl, rfl, rfl, rfl, rfl, rfl⟩

theorem State.sameEngine_setHost (s : State) (p : List HostOp) (ns : List (HostName × Word)) :
    s.SameEngine (s.setHost p ns) := ⟨rfl, rfl, rfl, rfl, rfl, rfl, rfl, rfl⟩

theorem State.sameEngine_afterRead (s : State) (off : Nat) : s.SameEngine (s.afterRead off) := by
  constructor <;> simp

theorem State.sameEngine_emitEvents (s : State) (ps : List (Nat × Nat)) : s.SameEngine (s.emitEvents ps) := by
  constructor <;> simp

theorem State.SameEngine.clearPending {s t : State} (h : s.SameEngine t) : s.clearPending.SameEngine t.clearPending :=
  ⟨h.cfg, h.mem, rfl, h.valid, h.flips, rfl, h.faultMark, h.refusalMark⟩

theorem State.SameEngine.setPending {s t : State} (h : s.SameEngine t) (i : Instr) :
    (s.setPending i).SameEngine (t.setPending i) :=
  ⟨h.cfg, h.mem, rfl, h.valid, h.flips, rfl, h.faultMark, h.refusalMark⟩

theorem State.SameEngine.writeStorage {s t : State} (h : s.SameEngine t) (off : Nat) (w : Word) :
    (s.writeStorage off w).SameEngine (t.writeStorage off w) :=
  ⟨h.cfg, congrArg (Memory.writeWord · off w) h.mem, h.busy, h.valid, h.flips, h.pend, h.faultMark, h.refusalMark⟩

/-! ## The host's turn -/

/-- A host turn changes a field of the spec's only by a bus write of four bytes, the first operation of the program. -/
theorem hostTurn_cases {s t : State} (h : hostTurn s = .next t) :
    s.SameEngine t ∨ ∃ off e rest u, s.prog = .write off 4 e :: rest ∧
      memWrite s off 4 (evalExpr s.names e) = .next u ∧ u.SameEngine t := by
  have hread {off width x nxt} (h : hostRead s off width x nxt = .next t) : s.SameEngine t := by
    obtain ⟨v, _, rfl⟩ := hostRead_cases h
    exact (s.sameEngine_afterRead off).trans (State.sameEngine_setHost _ _ _)
  unfold hostTurn at h
  split at h
  · cases h; exact .inl ⟨rfl, rfl, rfl, rfl, rfl, rfl, rfl, rfl⟩
  · exact .inl (hread h)
  · next off width e rest hp =>
    obtain ⟨u, hu, rfl⟩ := hostWrite_cases h
    obtain ⟨_, rfl, _⟩ := memWrite_cases hu
    exact .inr ⟨off, e, rest, u, hp, hu, u.sameEngine_setHost _ _⟩
  · exact .inl (hread h)
  · cases h; exact .inl (s.sameEngine_setHost _ _)
  · cases h; exact .inl (s.sameEngine_setHost _ _)

/-! ## One step -/

/-- Everything a step that answers `t` can have done to the fields of the spec's. -/
inductive StepEffect (s t : State) : Prop where
  /-- Nothing: a read, the host's own computation, or a turn that passes. -/
  | passes (same : s.SameEngine t)
  /-- The host's write to CMD issues a command (30 R74). -/
  | issues {i : Instr} {e : HostExpr} {rest : List HostOp} (same : (s.setPending i).SameEngine t)
      (turn : s.nextTurn = .host) (idle : s.busy = false) (op : s.prog = .write 0x0000 4 e :: rest)
  /-- The host writes a word of DATA or of the stored fingerprint (20 R54). -/
  | writes {off : Nat} {e : HostExpr} {rest : List HostOp} {w : Word} (same : (s.writeStorage off w).SameEngine t)
      (turn : s.nextTurn = .host) (idle : s.busy = false) (op : s.prog = .write off 4 e :: rest)
      (word : isDataWord s.cfg off ∨ isStoredWord s.cfg off)
  /-- COMPUTE completes (40 R97). -/
  | computes (same : (s.writeFresh s.fpOfData).clearPending.SameEngine t)
      (turn : s.nextTurn = .engine) (busy : s.busy = true) (pend : s.pend = some .compute)
  /-- CHECK completes (41 R105). -/
  | checks (same : (s.setValid (decide (s.storedOf = s.fpOfData))).clearPending.SameEngine t)
      (turn : s.nextTurn = .engine) (busy : s.busy = true) (pend : s.pend = some .check)
  /-- REPAIR completes (42 R113). -/
  | repairs (same : ((s.writeData (applyFlips s.dataOf s.flipped)).setFlips s.flipped.length).clearPending.SameEngine t)
      (turn : s.nextTurn = .engine) (busy : s.busy = true) (pend : s.pend = some .repair)
  /-- BUSY is cleared with no command in PEND, which no run reaches (log 11). -/
  | clears (same : s.clearPending.SameEngine t) (turn : s.nextTurn = .engine) (busy : s.busy = true) (pend : s.pend = none)
  /-- Reset (70 R147). -/
  | resets (same : s.applyReset.SameEngine t) (turn : s.nextTurn = .reset)
  /-- The environment flips a bit of a word of DATA or of the stored fingerprint (20 R66). -/
  | upsets {off bit : Nat} (same : State.SameEngine { s with mem := s.mem.flipBit off bit } t)
      (turn : s.nextTurn = .upset off bit) (model : s.cfg.upsetModel = .single) (idle : s.busy = false) (bit_lt : bit < 32)
      (word : isDataWord s.cfg off ∨ isStoredWord s.cfg off)

/-- An aligned offset of the DATA or of the stored window is the offset of one of its words. -/
theorem isProtectedWord_of_regionOf {c : Config} {off : Nat} (ha : off % 4 = 0)
    (hr : regionOf c off = .data ∨ regionOf c off = .fps) : isDataWord c off ∨ isStoredWord c off :=
  hr.imp (fun h => isDataWord_iff.2 ⟨h, ha⟩) (fun h => isStoredWord_iff.2 ⟨h, ha⟩)

theorem StepEffect.of_hostTurn {s t : State} (turn : s.nextTurn = .host) (h : hostTurn s.dropTurn = .next t) :
    StepEffect s t := by
  obtain hs | ⟨off, e, rest, u, hp, hu, hs⟩ := hostTurn_cases h
  · exact .passes (s.sameEngine_dropTurn.trans hs)
  · obtain ⟨ha, _, hb, ⟨rfl, i, _, rfl⟩ | ⟨hr, rfl⟩⟩ := memWrite_cases hu
    · exact .issues ((s.sameEngine_dropTurn.setPending i).trans hs) turn hb hp
    · exact .writes ((s.sameEngine_dropTurn.writeStorage _ _).trans hs) turn hb hp (isProtectedWord_of_regionOf ha hr)

theorem StepEffect.of_engineTurn {s t : State} (turn : s.nextTurn = .engine) (h : engineTurn s.dropTurn = .next t) :
    StepEffect s t := by
  obtain ⟨_, rfl⟩ | ⟨hb, hn, rfl⟩ | ⟨hb, i, u, hi, hu, rfl⟩ := engineTurn_cases h
  · exact .passes s.sameEngine_dropTurn
  · exact .clears s.sameEngine_dropTurn.clearPending turn hb hn
  · obtain ⟨rfl, _, rfl⟩ | ⟨rfl, _, _, rfl⟩ | ⟨rfl, _, _, rfl⟩ := exec_cases hu
    · exact .computes ⟨rfl, rfl, rfl, rfl, rfl, rfl, rfl, rfl⟩ turn hb hi
    · exact .checks ⟨rfl, rfl, rfl, rfl, rfl, rfl, rfl, rfl⟩ turn hb hi
    · refine .repairs (.trans ?_ (State.sameEngine_emitEvents _ _).clearPending) turn hb hi
      exact ⟨rfl, rfl, rfl, rfl, rfl, rfl, rfl, rfl⟩

theorem StepEffect.of_upsetTurn {s : State} {off bit : Nat} (turn : s.nextTurn = .upset off bit) :
    StepEffect s (upsetTurn s.dropTurn off bit) := by
  obtain h | ⟨hm, hb, ha, hbit, hr, h⟩ := upsetTurn_cases s.dropTurn off bit
  · rw [h]; exact .passes s.sameEngine_dropTurn
  · rw [h]
    exact .upsets ⟨rfl, rfl, rfl, rfl, rfl, rfl, rfl, rfl⟩ turn hm hb hbit (isProtectedWord_of_regionOf ha hr)

theorem step_effect {s t : State} (h : step s = .next t) : StepEffect s t := by
  obtain ⟨turn, h⟩ | ⟨turn, h⟩ | ⟨turn, rfl⟩ | ⟨off, bit, turn, rfl⟩ := step_cases h
  · exact .of_hostTurn turn h
  · exact .of_engineTurn turn h
  · exact .resets ⟨rfl, rfl, rfl, rfl, rfl, rfl, rfl, rfl⟩ turn
  · exact .of_upsetTurn turn

/-! ## The control registers and the marks -/

/-- Settles O7: of the effects of a step, only an issue, a completion and reset write BUSY. -/
theorem onlyIssueCompletionAndResetChangeBusy : Obligations.OnlyIssueCompletionAndResetChangeBusy := by
  intro s t h hne
  cases step_effect h with
  | issues _ turn idle op => exact .inl ⟨turn, idle, _, _, op⟩
  | computes _ turn busy | checks _ turn busy | repairs _ turn busy | clears _ turn busy => exact .inr (.inl ⟨turn, busy⟩)
  | resets _ turn => exact .inr (.inr turn)
  | passes same | writes same | upsets same => exact absurd same.busy hne

/-- Settles O8: only CHECK's effect and reset's write VALID. -/
theorem onlyCheckAndResetChangeValid : Obligations.OnlyCheckAndResetChangeValid := by
  intro s t h hne
  cases step_effect h with
  | checks _ turn busy pend => exact .inl ⟨turn, busy, pend⟩
  | resets _ turn => exact .inr turn
  | passes same | issues same | writes same | computes same | repairs same | clears same | upsets same =>
    exact absurd same.valid hne

/-- Settles O9: only REPAIR's effect and reset's write FLIPS. -/
theorem onlyRepairAndResetChangeFlips : Obligations.OnlyRepairAndResetChangeFlips := by
  intro s t h hne
  cases step_effect h with
  | repairs _ turn busy pend => exact .inl ⟨turn, busy, pend⟩
  | resets _ turn => exact .inr turn
  | passes same | issues same | writes same | computes same | checks same | clears same | upsets same =>
    exact absurd same.flips hne

theorem step_marks {s t : State} (h : step s = .next t) :
    t.faultMark = s.faultMark ∧ t.refusalMark = s.refusalMark := by
  cases step_effect h with
  | passes same | issues same | writes same | computes same | checks same | repairs same | clears same | resets same
  | upsets same => exact ⟨same.faultMark, same.refusalMark⟩

/-- Settles O13: a step that answers leaves both marks alone, and one that does not only fills a mark that was clear. -/
theorem marksAreSticky : Obligations.MarksAreSticky := by
  intro s
  cases h : step s with
  | next t =>
    obtain ⟨hf, hr⟩ := step_marks h
    simp [hf, hr]
  | fault f => exact ⟨fun g hg => by simp [hg], fun r hr => hr⟩
  | refused r => exact ⟨fun f hf => hf, fun q hq => by simp [hq]⟩

/-! ## The bytes of the storage -/

theorem readByte_writeWord_ne {m : Memory} {off a : Nat} {w : Word}
    (h : (m.writeWord off w).readByte a ≠ m.readByte a) : off ≤ a ∧ a < off + 4 := by
  by_contra hout
  exact h (by rw [readByte_writeWord, if_neg hout])

theorem readByte_flipBit_ne {m : Memory} {off n a : Nat} (h : (m.flipBit off n).readByte a ≠ m.readByte a) :
    off ≤ a ∧ a < off + 4 := by
  by_contra hout
  exact h (readByte_flipBit_other m n (by omega))

theorem readByte_writeWords_ne {m : Memory} {off a : Nat} {ws : List Word}
    (h : (m.writeWords off ws).readByte a ≠ m.readByte a) : off ≤ a ∧ a < off + 4 * ws.length := by
  by_contra hout
  exact h (by rw [readByte_writeWords, if_neg hout])

theorem readByte_writeData_ne {s : State} {D : List Word} {a : Nat} (hD : D.length = s.cfg.R)
    (h : (s.writeData D).mem.readByte a ≠ s.mem.readByte a) : dataOff 0 ≤ a ∧ a < dataEnd s.cfg := by
  have := readByte_writeWords_ne h
  rwa [hD, ← dataOff_eq] at this

theorem readByte_writeFresh_ne {s : State} {a : Nat}
    (h : (s.writeFresh s.fpOfData).mem.readByte a ≠ s.mem.readByte a) : fpfOff 0 ≤ a ∧ a < fpfEnd s.cfg := by
  have := readByte_writeWords_ne h
  rwa [length_fpOfData_words, ← fpfOff_eq] at this

/-- What can change the byte of the storage at `a`: each writer with the window it writes. -/
theorem step_readByte_ne {s t : State} {a : Nat} (h : step s = .next t) (hne : t.mem.readByte a ≠ s.mem.readByte a) :
    (s.nextTurn = .host ∧ s.busy = false ∧ ∃ off e rest, s.prog = .write off 4 e :: rest ∧ (off ≤ a ∧ a < off + 4) ∧
      (isDataWord s.cfg off ∨ isStoredWord s.cfg off)) ∨
    (s.nextTurn = .engine ∧ s.busy = true ∧ s.pend = some .repair ∧ dataOff 0 ≤ a ∧ a < dataEnd s.cfg) ∨
    (s.nextTurn = .engine ∧ s.busy = true ∧ s.pend = some .compute ∧ fpfOff 0 ≤ a ∧ a < fpfEnd s.cfg) ∨
    s.nextTurn = .reset ∨
    (s.cfg.upsetModel = .single ∧ s.busy = false ∧ ∃ off bit, s.nextTurn = .upset off bit ∧ bit < 32 ∧
      (off ≤ a ∧ a < off + 4) ∧ (isDataWord s.cfg off ∨ isStoredWord s.cfg off)) := by
  cases step_effect h with
  | writes same turn idle op word =>
    rw [same.mem] at hne
    exact .inl ⟨turn, idle, _, _, _, op, readByte_writeWord_ne hne, word⟩
  | repairs same turn busy pend =>
    rw [same.mem] at hne
    exact .inr (.inl ⟨turn, busy, pend, readByte_writeData_ne (by simp) hne⟩)
  | computes same turn busy pend =>
    rw [same.mem] at hne
    exact .inr (.inr (.inl ⟨turn, busy, pend, readByte_writeFresh_ne hne⟩))
  | resets _ turn => exact .inr (.inr (.inr (.inl turn)))
  | upsets same turn model idle bit_lt word =>
    rw [same.mem] at hne
    exact .inr (.inr (.inr (.inr ⟨model, idle, _, _, turn, bit_lt, readByte_flipBit_ne hne, word⟩)))
  | passes same | issues same | checks same | clears same => rw [same.mem] at hne; exact absurd rfl hne

/-! ## The windows do not overlap (20 R45 to R49) -/

theorem dataEnd_le (c : Config) : dataEnd c ≤ fpsOff 0 := by
  have := R_le c
  simp only [dataEnd, dataOff, fpsOff]; omega

theorem fpsEnd_le (c : Config) : fpsEnd c ≤ fpfOff 0 := by
  have := fpWords_le c
  simp only [fpsEnd, fpsOff, fpfOff]; omega

theorem fpsOff_le_fpfOff : fpsOff 0 ≤ fpfOff 0 := by decide

theorem isDataWord_bounds {c : Config} {off : Nat} (h : isDataWord c off) :
    off % 4 = 0 ∧ dataOff 0 ≤ off ∧ off + 4 ≤ dataEnd c := by
  obtain ⟨r, hr, rfl⟩ := h
  simp only [dataEnd, dataOff]; omega

theorem isStoredWord_bounds {c : Config} {off : Nat} (h : isStoredWord c off) :
    off % 4 = 0 ∧ fpsOff 0 ≤ off ∧ off + 4 ≤ fpsEnd c := by
  obtain ⟨k, hk, rfl⟩ := h
  simp only [fpsEnd, fpsOff]; omega

/-- The word of the Protected Block that holds a byte of the DATA window is a DATA word. -/
theorem isDataWord_of_byte {c : Config} {off a : Nat} (h : isDataWord c off ∨ isStoredWord c off) (hoff : off ≤ a)
    (ha : a < dataEnd c) : isDataWord c off := by
  refine h.resolve_right fun hs => ?_
  have := isStoredWord_bounds hs
  have := dataEnd_le c
  omega

/-- The word of the Protected Block that holds a byte of the stored window is a stored word. -/
theorem isStoredWord_of_byte {c : Config} {off a : Nat} (h : isDataWord c off ∨ isStoredWord c off) (hoff : a < off + 4)
    (ha : fpsOff 0 ≤ a) : isStoredWord c off := by
  refine h.resolve_left fun hd => ?_
  have := isDataWord_bounds hd
  have := dataEnd_le c
  omega

/-- No word of the Protected Block holds a byte of the fresh window. -/
theorem lt_fpfOff_of_isProtectedWord {c : Config} {off : Nat} (h : isDataWord c off ∨ isStoredWord c off) :
    off + 4 ≤ fpfOff 0 := by
  rcases h with h | h
  · have := isDataWord_bounds h
    have := dataEnd_le c
    have := fpsOff_le_fpfOff
    omega
  · have := isStoredWord_bounds h
    have := fpsEnd_le c
    omega

/-- Settles O10: a byte of DATA lies in no stored word and not in the fresh window. -/
theorem onlyHostWritesAndRepairChangeData : Obligations.OnlyHostWritesAndRepairChangeData := by
  intro s t h a hlo hhi hne
  have hout : ¬ fpfOff 0 ≤ a := by
    have := dataEnd_le s.cfg
    have := fpsOff_le_fpfOff
    omega
  obtain ⟨turn, idle, off, e, rest, op, ⟨h1, h2⟩, word⟩ | ⟨turn, busy, pend, _⟩ | ⟨_, _, _, hf, _⟩ | turn |
    ⟨model, idle, off, bit, turn, hb, ⟨h1, h2⟩, word⟩ := step_readByte_ne h hne
  · exact .inl ⟨turn, idle, off, e, rest, op, h1, h2, isDataWord_of_byte word h1 hhi⟩
  · exact .inr (.inl ⟨turn, busy, pend⟩)
  · exact absurd hf hout
  · exact .inr (.inr (.inl turn))
  · exact .inr (.inr (.inr ⟨model, idle, off, bit, turn, hb, h1, h2, isDataWord_of_byte word h1 hhi⟩))

/-- Settles O11: both windows that a command writes end before the stored one or begin after it. -/
theorem engineNeverWritesTheStoredFingerprint : Obligations.EngineNeverWritesTheStoredFingerprint := by
  intro s t h a hlo hhi hne
  have hdata := dataEnd_le s.cfg
  have hfresh := fpsEnd_le s.cfg
  obtain ⟨turn, idle, off, e, rest, op, ⟨h1, h2⟩, word⟩ | ⟨_, _, _, _, hd⟩ | ⟨_, _, _, hf, _⟩ | turn |
    ⟨model, idle, off, bit, turn, hb, ⟨h1, h2⟩, word⟩ := step_readByte_ne h hne
  · exact .inl ⟨turn, idle, off, e, rest, op, h1, h2, isStoredWord_of_byte word h2 hlo⟩
  · omega
  · omega
  · exact .inr (.inl turn)
  · exact .inr (.inr ⟨model, idle, off, bit, turn, hb, h1, h2, isStoredWord_of_byte word h2 hlo⟩)

/-- Settles O12: no host write, upset or REPAIR reaches the fresh window. -/
theorem onlyComputeAndResetChangeTheFreshFingerprint : Obligations.OnlyComputeAndResetChangeTheFreshFingerprint := by
  intro s t h a hlo hhi hne
  obtain ⟨_, _, off, _, _, _, ⟨_, h2⟩, word⟩ | ⟨_, _, _, _, hd⟩ | ⟨turn, busy, pend, _⟩ | turn |
    ⟨_, _, off, _, _, _, ⟨_, h2⟩, word⟩ := step_readByte_ne h hne
  · have := lt_fpfOff_of_isProtectedWord word
    omega
  · have := dataEnd_le s.cfg
    have := fpsOff_le_fpfOff
    omega
  · exact .inl ⟨turn, busy, pend⟩
  · exact .inr turn
  · have := lt_fpfOff_of_isProtectedWord word
    omega

end Sys2Proof.Machine
end

section
/-! SUPPORT. The machine's invariant (State.Inv) in three parts, and that each effect of a step keeps them. -/

namespace Sys2Proof.Machine

/-! ## The listing of the storage (10 R39) -/

/-- The storage is listed canonically, only where the window has storage, a whole word at a time. -/
structure Memory.Listed (c : Config) (m : Memory) : Prop where
  canonical : m.wf
  onlyStorage : ∀ a, (m.readByte a).isSome → storageByte c a
  wholeWords : ∀ off, off % 4 = 0 → ∀ j < 4, (m.readByte (off + j)).isSome = (m.readByte off).isSome

theorem Memory.listed_nil (c : Config) : Memory.Listed c [] :=
  ⟨List.Pairwise.nil, fun _ h => absurd h (by simp [Memory.readByte]), fun _ _ _ _ => rfl⟩

theorem isSome_readByte_writeWords (m : Memory) (off : Nat) (ws : List Word) (a : Nat) :
    ((m.writeWords off ws).readByte a).isSome = (decide (off ≤ a ∧ a < off + 4 * ws.length) || (m.readByte a).isSome) := by
  rw [readByte_writeWords]
  split <;> simp [*]

/-- A write of aligned words of the storage lists whole words of the storage. -/
theorem Memory.Listed.writeWords {c : Config} {m : Memory} (hm : m.Listed c) {off : Nat} {ws : List Word}
    (ha : off % 4 = 0) (hin : ∀ a, off ≤ a → a < off + 4 * ws.length → storageByte c a) :
    (m.writeWords off ws).Listed c where
  canonical := wf_writeWords off ws hm.canonical
  onlyStorage a h := by
    rw [isSome_readByte_writeWords, Bool.or_eq_true, decide_eq_true_eq] at h
    exact h.elim (fun ⟨h1, h2⟩ => hin a h1 h2) (hm.onlyStorage a)
  wholeWords a haa j hj := by
    have hiff : (off ≤ a + j ∧ a + j < off + 4 * ws.length) ↔ (off ≤ a ∧ a < off + 4 * ws.length) := by omega
    rw [isSome_readByte_writeWords, isSome_readByte_writeWords, hm.wholeWords a haa j hj, decide_eq_decide.2 hiff]

theorem storageByte_of_isProtectedWord {c : Config} {off a : Nat} (h : isDataWord c off ∨ isStoredWord c off)
    (h1 : off ≤ a) (h2 : a < off + 4) : storageByte c a := by
  rcases h with h | h
  · have := isDataWord_bounds h
    exact .inl (by omega)
  · have := isStoredWord_bounds h
    exact .inr (.inl (by omega))

theorem Memory.Listed.writeWord {c : Config} {m : Memory} (hm : m.Listed c) {off : Nat} (w : Word)
    (h : isDataWord c off ∨ isStoredWord c off) : (m.writeWord off w).Listed c := by
  have ha : off % 4 = 0 := h.elim (fun h => (isDataWord_bounds h).1) (fun h => (isStoredWord_bounds h).1)
  exact hm.writeWords (ws := [w]) ha fun a h1 h2 => storageByte_of_isProtectedWord h h1 h2

theorem Memory.Listed.flipBit {c : Config} {m : Memory} (hm : m.Listed c) {off : Nat} (n : Nat)
    (h : isDataWord c off ∨ isStoredWord c off) : (m.flipBit off n).Listed c := by
  unfold Memory.flipBit
  split
  · exact hm.writeWord _ h
  · exact hm

/-! ## The fresh window (10 R39, 40 R103) -/

/-- The fresh words are all written or none is, and the unused slots of FSD[B] and FBD[B] are 0. -/
structure State.FreshWhole (s : State) : Prop where
  together : ∀ k < s.cfg.fpWords, (s.mem.readWord (fpfOff k)).isSome = (s.mem.readWord (fpfOff 0)).isSome
  slashSlot : (s.freshFpWord (2 * s.cfg.B + 1)).getLsbD 0 = false
  backslashSlot : (s.freshFpWord (3 * s.cfg.B + 2)).getLsbD 0 = false

/-- Only the fresh words matter. -/
theorem State.FreshWhole.congr {s t : State} (hs : s.FreshWhole) (hc : t.cfg = s.cfg)
    (h : ∀ k, t.mem.readWord (fpfOff k) = s.mem.readWord (fpfOff k)) : t.FreshWhole := by
  have hw (k : Nat) : t.freshFpWord k = s.freshFpWord k := by rw [State.freshFpWord, h, State.freshFpWord]
  exact ⟨fun k hk => by rw [h, h]; exact hs.together k (hc ▸ hk), by rw [hc, hw]; exact hs.slashSlot,
    by rw [hc, hw]; exact hs.backslashSlot⟩

theorem State.freshWhole_of_nil {s : State} (h : s.mem = []) : s.FreshWhole := by
  have hr (k : Nat) : s.mem.readWord (fpfOff k) = none := by rw [h]; rfl
  exact ⟨fun k _ => by rw [hr, hr], by simp [State.freshFpWord, hr], by simp [State.freshFpWord, hr]⟩

/-- The last word of a diagonal family has no line at its last place (40 R103). -/
theorem diagPar_unusedSlot (B : Nat) (D : List Word) {f : LineFamily} (hf : f = .slash ∨ f = .backslash) :
    ((diagPar B D f).getD B 0#32).getLsbD 0 = false := by
  have hlines : f.lineCount B = 32 * B + 31 := by rcases hf with rfl | rfl <;> rfl
  rw [diagPar_getD D f le_rfl, getLsbD_ofBitsMsb, hlines]
  simp

theorem freshFpWord_writeFresh {s : State} {k : Nat} (hk : k < s.cfg.fpWords) :
    (s.writeFresh s.fpOfData).freshFpWord k = s.fpOfData.words.getD k 0#32 := by
  rw [State.freshFpWord, readWord_writeFresh hk]; rfl

theorem State.freshWhole_writeFresh (s : State) : (s.writeFresh s.fpOfData).FreshWhole where
  together k hk := by
    have h0 : 0 < s.cfg.fpWords := by rw [fpWords_eq]; omega
    rw [readWord_writeFresh (s := s) hk, readWord_writeFresh h0]; rfl
  slashSlot := by
    rw [State.writeFresh_cfg, freshFpWord_writeFresh (by rw [fpWords_eq]; omega),
      show 2 * s.cfg.B + 1 = s.cfg.B + 1 + s.cfg.B by omega, Fingerprint.words_sd (fpOfData_sized s) le_rfl]
    exact diagPar_unusedSlot _ _ (.inl rfl)
  backslashSlot := by
    rw [State.writeFresh_cfg, freshFpWord_writeFresh (by rw [fpWords_eq]; omega),
      show 3 * s.cfg.B + 2 = 2 * s.cfg.B + 2 + s.cfg.B by omega, Fingerprint.words_bd (fpOfData_sized s) le_rfl]
    exact diagPar_unusedSlot _ _ (.inr rfl)

/-! ## The invariant -/

theorem State.inv_iff {s : State} : s.Inv ↔ s.mem.Listed s.cfg ∧ s.FreshWhole ∧ s.busy = s.pend.isSome := by
  constructor
  · rintro ⟨h1, h2, h3, h4, h5, h6, h7⟩
    exact ⟨⟨h1, h2, h3⟩, ⟨h4, h5, h6⟩, h7⟩
  · rintro ⟨⟨h1, h2, h3⟩, ⟨h4, h5, h6⟩, h7⟩
    exact ⟨h1, h2, h3, h4, h5, h6, h7⟩

theorem State.Inv.sameEngine {s t : State} (hs : s.Inv) (h : s.SameEngine t) : t.Inv := by
  obtain ⟨hl, hf, hp⟩ := State.inv_iff.1 hs
  refine State.inv_iff.2 ⟨?_, hf.congr h.cfg fun k => by rw [h.mem], ?_⟩
  · rw [h.mem, h.cfg]; exact hl
  · rw [h.busy, h.pend]; exact hp

theorem State.Inv.setPending {s : State} (hs : s.Inv) (i : Instr) : (s.setPending i).Inv := by
  obtain ⟨hl, hf, _⟩ := State.inv_iff.1 hs
  exact State.inv_iff.2 ⟨hl, hf.congr rfl fun _ => rfl, rfl⟩

theorem State.Inv.clearPending {s : State} (hs : s.Inv) : s.clearPending.Inv := by
  obtain ⟨hl, hf, _⟩ := State.inv_iff.1 hs
  exact State.inv_iff.2 ⟨hl, hf.congr rfl fun _ => rfl, rfl⟩

theorem State.Inv.setValid {s : State} (hs : s.Inv) (b : Bool) : (s.setValid b).Inv := by
  obtain ⟨hl, hf, hp⟩ := State.inv_iff.1 hs
  exact State.inv_iff.2 ⟨hl, hf.congr rfl fun _ => rfl, hp⟩

theorem State.Inv.setFlips {s : State} (hs : s.Inv) (n : Nat) : (s.setFlips n).Inv := by
  obtain ⟨hl, hf, hp⟩ := State.inv_iff.1 hs
  exact State.inv_iff.2 ⟨hl, hf.congr rfl fun _ => rfl, hp⟩

theorem State.Inv.writeStorage {s : State} (hs : s.Inv) {off : Nat} (w : Word)
    (h : isDataWord s.cfg off ∨ isStoredWord s.cfg off) : (s.writeStorage off w).Inv := by
  obtain ⟨hl, hf, hp⟩ := State.inv_iff.1 hs
  have hout := lt_fpfOff_of_isProtectedWord h
  refine State.inv_iff.2 ⟨hl.writeWord w h, hf.congr rfl fun k => readWord_writeWord_other _ _ ?_, hp⟩
  rw [fpfOff_eq]; omega

theorem State.Inv.flipBit {s : State} (hs : s.Inv) {off : Nat} (n : Nat)
    (h : isDataWord s.cfg off ∨ isStoredWord s.cfg off) : State.Inv { s with mem := s.mem.flipBit off n } := by
  obtain ⟨hl, hf, hp⟩ := State.inv_iff.1 hs
  have hout := lt_fpfOff_of_isProtectedWord h
  refine State.inv_iff.2 ⟨hl.flipBit n h, hf.congr rfl fun k => readWord_flipBit_other _ _ ?_, hp⟩
  rw [fpfOff_eq]; omega

theorem State.Inv.writeData {s : State} (hs : s.Inv) {D : List Word} (hD : D.length = s.cfg.R) : (s.writeData D).Inv := by
  obtain ⟨hl, hf, hp⟩ := State.inv_iff.1 hs
  have hend : dataOff 0 + 4 * D.length = dataEnd s.cfg := by rw [hD, ← dataOff_eq]; rfl
  have hout := dataEnd_le s.cfg
  have hle := fpsOff_le_fpfOff
  refine State.inv_iff.2 ⟨hl.writeWords rfl fun a h1 h2 => .inl ⟨h1, by omega⟩,
    hf.congr rfl fun k => readWord_writeWords_other _ _ _ ?_, hp⟩
  rw [fpfOff_eq]; omega

theorem State.Inv.writeFresh {s : State} (hs : s.Inv) : (s.writeFresh s.fpOfData).Inv := by
  obtain ⟨hl, _, hp⟩ := State.inv_iff.1 hs
  have hend : fpfOff 0 + 4 * s.fpOfData.words.length = fpfEnd s.cfg := by rw [length_fpOfData_words, ← fpfOff_eq]; rfl
  exact State.inv_iff.2 ⟨hl.writeWords rfl fun a h1 h2 => .inr (.inr ⟨h1, by omega⟩), s.freshWhole_writeFresh, hp⟩

/-- A machine with nothing written and no command in flight meets the invariant. -/
theorem State.inv_of_unwritten {s : State} (hm : s.mem = []) (hb : s.busy = false) (hp : s.pend = none) : s.Inv :=
  State.inv_iff.2 ⟨hm ▸ Memory.listed_nil _, State.freshWhole_of_nil hm, by rw [hb, hp]; rfl⟩

/-- Settles O16: each effect of a step keeps the invariant. -/
theorem everyStepKeepsTheInvariant : Obligations.EveryStepKeepsTheInvariant := by
  intro s t hs h
  cases step_effect h with
  | passes same => exact hs.sameEngine same
  | issues same => exact (hs.setPending _).sameEngine same
  | writes same _ _ _ word => exact (hs.writeStorage _ word).sameEngine same
  | computes same => exact hs.writeFresh.clearPending.sameEngine same
  | checks same => exact (hs.setValid _).clearPending.sameEngine same
  | repairs same => exact ((hs.writeData (by simp)).setFlips _).clearPending.sameEngine same
  | clears same => exact hs.clearPending.sameEngine same
  | resets same => exact (State.inv_of_unwritten rfl rfl rfl).sameEngine same
  | upsets same _ _ _ _ word => exact (hs.flipBit _ word).sameEngine same

/-- Settles O17: nothing is written and no command is in flight. -/
theorem resetStateMeetsTheInvariant : Obligations.ResetStateMeetsTheInvariant :=
  fun _ => State.inv_of_unwritten rfl rfl rfl

end Sys2Proof.Machine
end

section
/-! SUPPORT. What the host reads and writes at the offsets of the map (20 R46 to R54). -/

namespace Sys2Proof.Machine

/-! ## The offsets of the map -/

/-- The offsets that a read of four bytes admits are those the map names for reading (20 R53). -/
theorem readable_iff_isReadOffset {c : Config} {off : Nat} : readable c off 4 = true ↔ isReadOffset c off := by
  simp only [readable_iff, wordAccess_iff, isReadOffset, isDataWord_iff, isStoredWord_iff, isFreshWord_iff,
    ← regionOf_eq_status (c := c), ← regionOf_eq_flips (c := c)]
  constructor
  · rintro ⟨⟨hres, ha, _⟩, hcmd⟩
    cases hr : regionOf c off <;> simp_all
  · have h4 (h : regionOf c off = .status) : off % 4 = 0 := by rw [regionOf_eq_status.1 h]
    have h8 (h : regionOf c off = .flips) : off % 4 = 0 := by rw [regionOf_eq_flips.1 h]
    rintro (h | h | ⟨h, ha⟩ | ⟨h, ha⟩ | ⟨h, ha⟩) <;> simp_all

/-- The offsets that a write of four bytes admits are those the map names for writing (20 R54). -/
theorem writable_iff_isWriteOffset {c : Config} {off : Nat} : writable c off 4 = true ↔ isWriteOffset c off := by
  rw [writable_iff, isWriteOffset, isDataWord_iff, isStoredWord_iff, regionOf_eq_cmd]
  constructor
  · rintro ⟨ha, _, h | h | h⟩
    · exact .inl h
    · exact .inr (.inl ⟨h, ha⟩)
    · exact .inr (.inr ⟨h, ha⟩)
  · rintro (rfl | ⟨h, ha⟩ | ⟨h, ha⟩)
    · exact ⟨rfl, rfl, .inl rfl⟩
    · exact ⟨ha, rfl, .inr (.inl h)⟩
    · exact ⟨ha, rfl, .inr (.inr h)⟩

/-! ## Reads (20 R53) -/

/-- While BUSY = 1 a read of any offset of the map but STATUS is a BusyHazard (70 R152). -/
theorem memRead_busy {s : State} {off : Nat} (hb : s.busy = true) (ho : isReadOffset s.cfg off) (h4 : off ≠ 0x0004) :
    memRead s off 4 = .error (.busyHazard off) := by
  have hs : regionOf s.cfg off ≠ .status := fun h => h4 (regionOf_eq_status.1 h)
  simp [memRead, readable_iff_isReadOffset.2 ho, hs, hb]

/-- While BUSY = 0 a read of a storage word is the read of its listing (10 R39). -/
theorem memRead_storedWord {s : State} {off : Nat} (hb : s.busy = false)
    (ho : isDataWord s.cfg off ∨ isStoredWord s.cfg off ∨ isFreshWord s.cfg off) :
    memRead s off 4 = s.storedWord off := by
  have hr : readable s.cfg off 4 = true := readable_iff_isReadOffset.2 (.inr (.inr ho))
  have hregion : regionOf s.cfg off = .data ∨ regionOf s.cfg off = .fps ∨ regionOf s.cfg off = .fpf :=
    ho.imp (fun h => (isDataWord_iff.1 h).1)
      (Or.imp (fun h => (isStoredWord_iff.1 h).1) fun h => (isFreshWord_iff.1 h).1)
  rcases hregion with h | h | h <;> simp [memRead, hr, h, hb]

theorem storedWord_of_some {s : State} {off : Nat} {w : Word} (h : s.mem.readWord off = some w) :
    s.storedWord off = .ok w := by simp [State.storedWord, h]

theorem storedWord_of_none {s : State} {off : Nat} (h : s.mem.readWord off = none) :
    s.storedWord off = .error (.unwritten off) := by simp [State.storedWord, h]

theorem status_idle {s : State} (hb : s.busy = false) : s.status = statusWord s.valid false := by
  simp [State.status, State.validRead, hb]

/-- Settles O21: the reads of STATUS, of FLIPS and of a listed word, and the hazard while BUSY = 1. -/
theorem readReturnsTheNamedWord : Obligations.ReadReturnsTheNamedWord := by
  intro s off
  refine ⟨⟨s.status, memRead_status s, ?_⟩, memRead_busy, memRead_flips, fun hb ho => ?_⟩
  · obtain ⟨h0, h1, h2⟩ := statusWord_bits s.validRead s.busy
    exact ⟨h0, fun hb => by rw [status_idle hb]; exact (statusWord_bits _ _).2.1, h2⟩
  · rw [memRead_storedWord hb ho]
    exact ⟨fun w => storedWord_of_some, storedWord_of_none⟩

/-- Settles O18: STATUS and FLIPS read their reset values, and no word is listed. -/
theorem resetStateReadsAsTheSpecSays : Obligations.ResetStateReadsAsTheSpecSays := by
  intro c
  refine ⟨(memRead_status _).trans (congrArg Except.ok ?_), memRead_flips rfl, rfl, rfl, rfl, fun off ho => ?_⟩
  · rw [status_idle rfl, State.resetWith_valid]; decide
  · rw [memRead_storedWord rfl ho]
    exact storedWord_of_none rfl

/-! ## Writes (20 R54) -/

/-- While BUSY = 1 a write of any offset of the map is a BusyHazard (30 R75, 70 R152). -/
theorem memWrite_busy {s : State} {off : Nat} (v : Word) (hb : s.busy = true) (ho : isWriteOffset s.cfg off) :
    memWrite s off 4 v = .fault (.busyHazard off) := by
  by_cases hc : regionOf s.cfg off = .cmd
  · obtain rfl := regionOf_eq_cmd.1 hc
    rw [memWrite_cmd, issueCommand, if_pos hb, raise_eq]
  · simp [memWrite, writable_iff_isWriteOffset.2 ho, hc, hb]

theorem sameOutside_writeWord (m : Memory) (off : Nat) (w : Word) :
    sameOutside m (m.writeWord off w) off (off + 4) := fun a ha => by
  rw [readByte_writeWord, if_neg (by omega)]

/-- Settles O22: the write is one word write of the listing, which then reads back. -/
theorem writeStoresOnlyTheAddressedWord : Obligations.WriteStoresOnlyTheAddressedWord := by
  intro s off v ho
  refine ⟨fun hb => memWrite_busy v hb (.inr ho), fun hb => ⟨s.mem.writeWord off v, ?_, readWord_writeWord_same _ _ _,
    sameOutside_writeWord _ _ _, ?_⟩⟩
  · have hr : regionOf s.cfg off = .data ∨ regionOf s.cfg off = .fps :=
      ho.imp (fun h => (isDataWord_iff.1 h).1) fun h => (isStoredWord_iff.1 h).1
    have ha : off % 4 = 0 := ho.elim (fun h => (isDataWord_iff.1 h).2) fun h => (isStoredWord_iff.1 h).2
    exact memWrite_storage v hb ha hr
  · rw [memRead_storedWord (s := { s with mem := s.mem.writeWord off v }) hb (ho.imp_right .inl)]
    exact storedWord_of_some (readWord_writeWord_same _ _ _)

end Sys2Proof.Machine
end

section
/-! SUPPORT. The accesses that the map does not name (20 R50 to R52), what a host read leaves alone (20 R58), and the
environment's upsets (20 R66). -/

namespace Sys2Proof.Machine

/-! ## Accesses outside the map (20 R50 to R52, R55) -/

/-- An access the read direction admits is a whole word at an offset the map names for reading (20 R51, R53). -/
theorem readable_iff_width_isReadOffset {c : Config} {off width : Nat} :
    readable c off width = true ↔ width = 4 ∧ isReadOffset c off := by
  constructor
  · intro h
    obtain ⟨_, _, rfl⟩ := wordAccess_iff.1 (readable_iff.1 h).1
    exact ⟨rfl, readable_iff_isReadOffset.1 h⟩
  · rintro ⟨rfl, h⟩
    exact readable_iff_isReadOffset.2 h

/-- An access the write direction admits is a whole word at an offset the map names for writing (20 R51, R54). -/
theorem writable_iff_width_isWriteOffset {c : Config} {off width : Nat} :
    writable c off width = true ↔ width = 4 ∧ isWriteOffset c off := by
  constructor
  · intro h
    obtain ⟨_, rfl, _⟩ := writable_iff.1 h
    exact ⟨rfl, writable_iff_isWriteOffset.1 h⟩
  · rintro ⟨rfl, h⟩
    exact writable_iff_isWriteOffset.2 h

theorem memRead_badAccess {s : State} {off width : Nat} (h : ¬ readable s.cfg off width = true) :
    memRead s off width = .error (.badAccess off) := by
  simp [memRead, h]

theorem memWrite_badAccess {s : State} {off width : Nat} (v : Word) (h : ¬ writable s.cfg off width = true) :
    memWrite s off width v = .fault (.badAccess off) := by
  simp [memWrite, h]

/-- Settles O20: an access that the direction does not admit has another width or an offset the map does not name for it,
and it is checked before BUSY. -/
theorem accessOutsideTheMapIsBadAccess : Obligations.AccessOutsideTheMapIsBadAccess := by
  intro s off width v
  constructor
  · intro h
    refine memRead_badAccess fun hr => ?_
    obtain ⟨hw, ho⟩ := readable_iff_width_isReadOffset.1 hr
    exact h.elim (· hw) (· ho)
  · intro h
    refine memWrite_badAccess v fun hr => ?_
    obtain ⟨hw, ho⟩ := writable_iff_width_isWriteOffset.1 hr
    exact h.elim (· hw) (· ho)

/-! ## What a host read leaves alone (20 R58) -/

/-- While BUSY = 0 a read depends on the spec's fields alone: VALID is then no draw (10 R34). -/
theorem State.SameEngine.memRead_idle {s t : State} (h : s.SameEngine t) (hb : s.busy = false) (off width : Nat) :
    memRead t off width = memRead s off width := by
  have hstatus : t.status = s.status := by
    rw [status_idle hb, status_idle (h.busy.trans hb), h.valid]
  simp only [memRead, State.storedWord, hstatus, h.cfg, h.mem, h.busy, h.flips]

/-- Settles O24: the step leaves the spec's fields as they were and binds the value it read to the name. -/
theorem hostReadsHaveNoSideEffect : Obligations.HostReadsHaveNoSideEffect := by
  intro s t off width x rest turn hp h
  have hread : hostRead s.dropTurn off width x (fun _ => rest) = .next t := by
    rw [← h, step_host turn, hostTurn, State.dropTurn_prog, hp]
  obtain ⟨v, hv, rfl⟩ := hostRead_cases hread
  have same := s.sameEngine_dropTurn.trans
    ((s.dropTurn.sameEngine_afterRead off).trans (State.sameEngine_setHost _ rest (bindName s.dropTurn.names x v)))
  refine ⟨same.mem, same.busy, same.valid, same.flips, same.pend, ⟨v, hv, ?_⟩, same.memRead_idle⟩
  rw [State.setHost_names, lookup_bind, if_pos rfl]

/-! ## Upsets (20 R66, 92 D27) -/

theorem step_upset {s : State} {off bit : Nat} (h : s.nextTurn = .upset off bit) :
    step s = .next (upsetTurn s.dropTurn off bit) := by simp [step, h, runTurn]

theorem flipBit_unwritten {m : Memory} {off : Nat} (n : Nat) (h : m.readWord off = none) : m.flipBit off n = m := by
  simp [Memory.flipBit, h]

theorem sameOutside_flipBit (m : Memory) (off n : Nat) : sameOutside m (m.flipBit off n) off (off + 4) :=
  fun _ ha => readByte_flipBit_other m n ha

/-- The words an upset can hit are the aligned offsets of the DATA and of the stored window. -/
theorem isProtectedWord_iff {c : Config} {off : Nat} :
    isDataWord c off ∨ isStoredWord c off ↔ off % 4 = 0 ∧ (regionOf c off = .data ∨ regionOf c off = .fps) := by
  rw [isDataWord_iff, isStoredWord_iff, ← or_and_right, and_comm]

/-- An upset that UPSET_MODEL does not admit, and one of an unwritten word, passes (log 16). -/
theorem upsetTurn_passes {s : State} {off bit : Nat}
    (h : s.cfg.upsetModel = .none ∨ s.busy = true ∨ ¬ (isDataWord s.cfg off ∨ isStoredWord s.cfg off) ∨ 32 ≤ bit ∨
      s.mem.readWord off = none) : upsetTurn s off bit = s := by
  obtain heq | ⟨hm, hb, ha, hbit, hr, heq⟩ := upsetTurn_cases s off bit
  · exact heq
  · rcases h with h | h | h | h | h
    · simp [hm] at h
    · simp [hb] at h
    · exact absurd (isProtectedWord_iff.2 ⟨ha, hr⟩) h
    · omega
    · rw [heq, flipBit_unwritten bit h]

/-- An upset that UPSET_MODEL admits flips its bit of its word (20 R66). -/
theorem upsetTurn_admitted {s : State} {off bit : Nat} (hm : s.cfg.upsetModel = .single) (hb : s.busy = false)
    (ho : isDataWord s.cfg off ∨ isStoredWord s.cfg off) (hbit : bit < 32) :
    upsetTurn s off bit = { s with mem := s.mem.flipBit off bit } := by
  obtain ⟨ha, hr⟩ := isProtectedWord_iff.1 ho
  rw [upsetTurn, if_pos ⟨hm, hb, ha, hbit, hr⟩]

/-- Settles O15: the turn passes, or it is one flip of the listing at the named word. -/
theorem upsetsAreThoseTheModelAdmits : Obligations.UpsetsAreThoseTheModelAdmits := by
  intro s off n turn
  refine ⟨fun h => ?_, fun hm hb ho hn w hw => ⟨s.mem.flipBit off n, ?_, ?_, sameOutside_flipBit _ _ _⟩⟩
  · rw [step_upset turn, upsetTurn_passes (s := s.dropTurn) h, State.dropTurn]
  · rw [step_upset turn, upsetTurn_admitted (s := s.dropTurn) hm hb ho hn]
    rfl
  · rw [readWord_flipBit_same, hw, Option.map_some, oneBit]

end Sys2Proof.Machine
end

section
/-! SUPPORT. Command words (30 R67 to R72): what the decoder, the encoder and the opcode table say of every word; what a write
to CMD does, and the step that completes the command (30 R74 to R76). -/

namespace Sys2Proof

/-! ## The fields of a command word (30 R67) -/

theorem word_eq_iff_fields {v w : Word} : v = w ↔ rsvdField v = rsvdField w ∧ opField v = opField w := by
  refine ⟨by rintro rfl; exact ⟨rfl, rfl⟩, fun ⟨hr, ho⟩ => BitVec.eq_of_getLsbD_eq fun n hn => ?_⟩
  by_cases h : n < 8
  · simpa [opField, h] using congrArg (·.getLsbD n) ho
  · simpa [rsvdField, show n - 8 < 24 by omega, show 8 + (n - 8) = n by omega] using congrArg (·.getLsbD (n - 8)) hr

theorem rsvdField_encode (i : Instr) : rsvdField (encode i) = 0#24 := by cases i <;> rfl

theorem opField_encode (i : Instr) : opField (encode i) = opcodeOf i := by cases i <;> rfl

theorem eq_encode_iff {w : Word} {i : Instr} : w = encode i ↔ rsvdField w = 0#24 ∧ opField w = opcodeOf i := by
  rw [word_eq_iff_fields, rsvdField_encode, opField_encode]

/-! ## The decoder (30 R68, R70, R72) -/

theorem decodeOp_eq_ok {op : BitVec 8} {i : Instr} : decodeOp op = .ok i ↔ op = opcodeOf i := by
  constructor
  · intro h
    unfold decodeOp at h
    split_ifs at h <;> cases h <;> assumption
  · rintro rfl
    cases i <;> rfl

theorem decodeOp_eq_error {op : BitVec 8} :
    decodeOp op = .error .reservedCommand ↔ op ∉ [0x01#8, 0x02#8, 0x03#8] := by
  unfold decodeOp
  split_ifs <;> simp_all

theorem decode_eq_ok {w : Word} {i : Instr} : decode w = .ok i ↔ w = encode i := by
  rw [eq_encode_iff, decode]
  split
  · next h => simp [h]
  · next h => rw [decodeOp_eq_ok, and_iff_right (not_not.1 h)]

theorem decode_encode (i : Instr) : decode (encode i) = .ok i := decode_eq_ok.2 rfl

theorem decode_eq_error {w : Word} :
    decode w = .error .reservedCommand ↔ rsvdField w ≠ 0#24 ∨ opField w ∉ [0x01#8, 0x02#8, 0x03#8] := by
  rw [decode]
  split
  · next h => simp [h]
  · next h => rw [decodeOp_eq_error, or_iff_right h]

/-! ## The opcode table (30 R72) -/

theorem mem_opcodeTable {row : OpcodeRow} :
    row ∈ opcodeTable ↔ row = ⟨BitVec.allOnes 32, encode row.instr, row.instr⟩ := by
  obtain ⟨mask, pattern, i⟩ := row
  cases i <;> simp [opcodeTable, encode, opcodeOf]

/-- A row of the table selects exactly its command's word: the mask covers every bit. -/
theorem selects_iff {row : OpcodeRow} (h : row ∈ opcodeTable) {w : Word} :
    row.selects w = true ↔ w = encode row.instr := by
  rw [mem_opcodeTable] at h
  rw [h, OpcodeRow.selects, beq_iff_eq, BitVec.and_allOnes]

theorem exists_row_selects {w : Word} {i : Instr} :
    (∃ row ∈ opcodeTable, row.selects w = true ∧ row.instr = i) ↔ w = encode i := by
  constructor
  · rintro ⟨row, hrow, hsel, rfl⟩
    exact (selects_iff hrow).1 hsel
  · intro h
    have hrow : ⟨BitVec.allOnes 32, encode i, i⟩ ∈ opcodeTable := mem_opcodeTable.2 rfl
    exact ⟨_, hrow, (selects_iff hrow).2 h, rfl⟩

/-- Settles O1: a word is a command's word exactly when its fields are RSVD = 0 and the command's opcode, and the decoder and
the table's rows both test that. -/
theorem decoderSelectsExactlyTheTableWords : Obligations.DecoderSelectsExactlyTheTableWords :=
  ⟨rfl, rfl, rfl, fun _ _ => ⟨decode_eq_ok, decode_eq_ok.trans exists_row_selects.symm, decode_eq_error⟩⟩

/-- Settles O2: three command words, a word reserved by OP and one reserved by RSVD. -/
theorem sampleCommandWordsDecode : Obligations.SampleCommandWordsDecode :=
  ⟨decode_encode .compute, decode_encode .check, decode_encode .repair, decode_eq_error.2 (.inr (by decide)),
    decode_eq_error.2 (.inl (by decide))⟩

end Sys2Proof

namespace Sys2Proof.Machine

/-! ## A write to CMD (30 R70, R74, R75) -/

theorem memWrite_cmd_busy {s : State} (w : Word) (hb : s.busy = true) : memWrite s 0x0000 4 w = .fault (.busyHazard 0x0000) :=
  memWrite_busy w hb (.inl rfl)

theorem memWrite_cmd_ok {s : State} {w : Word} {i : Instr} (hb : s.busy = false) (h : decode w = .ok i) :
    memWrite s 0x0000 4 w = .next (s.setPending i) := by
  rw [memWrite_cmd, issueCommand_ok hb h]

theorem memWrite_cmd_reserved {s : State} {w : Word} (hb : s.busy = false) (h : decode w = .error .reservedCommand) :
    memWrite s 0x0000 4 w = .refused .reservedCommand := by
  simp [memWrite_cmd, issueCommand, hb, h]

/-- Settles O3: the hazard is checked before the word is decoded, and a decoded word is an issue. -/
theorem commandWriteIssuesRefusesOrFaults : Obligations.CommandWriteIssuesRefusesOrFaults := by
  refine fun s w => ⟨fun hb => ?_, fun hb i h => memWrite_cmd_ok hb h, memWrite_cmd_reserved⟩
  rw [memWrite_cmd_busy w hb]
  exact ⟨rfl, rfl, hb⟩

/-- Settles O4: the decoder rejects the word, so the write is refused, and a refusal changes its mark alone. -/
theorem reservedWordIsRefusedAndMarks : Obligations.ReservedWordIsRefusedAndMarks := by
  intro s w hb hw
  have hr := memWrite_cmd_reserved hb (decode_eq_error.2 (hw.imp_right fun h => by simpa using h))
  rw [hr]
  exact ⟨rfl, by simp, rfl⟩

/-! ## The steps of issue and completion (30 R74, R76) -/

theorem step_issue {s : State} {w : Word} {i : Instr} {rest : List HostOp} (turn : s.nextTurn = .host)
    (hb : s.busy = false) (hp : s.prog = .write 0x0000 4 (.const w) :: rest) (h : decode w = .ok i) :
    step s = .next ((s.dropTurn.setPending i).setHost rest s.names) := by
  rw [step_host turn, hostTurn, State.dropTurn_prog, hp]
  simp only [hostWrite, evalExpr, memWrite_cmd_ok (s := s.dropTurn) hb h]
  rfl

/-- The engine's turn with a command in flight is that command's `exec`, then the end of the completion. -/
theorem step_completion {s : State} {i : Instr} (turn : s.nextTurn = .engine) (hb : s.busy = true)
    (hi : s.pend = some i) : step s = finishCommand (exec i s.dropTurn) := by
  rw [step_engine turn, engineTurn, State.dropTurn_busy, if_pos hb, complete, State.dropTurn_pend, hi]

theorem step_engine_idle {s : State} (turn : s.nextTurn = .engine) (hb : s.busy = false) : step s = .next s.dropTurn := by
  rw [step_engine turn, engineTurn, State.dropTurn_busy, hb, if_neg Bool.false_ne_true]

/-- Settles O5: the issue, the completion that answers or faults, and the turn of an idle engine. -/
theorem stepIssuesThenRunsTheDecodedCommand : Obligations.StepIssuesThenRunsTheDecodedCommand := by
  refine ⟨fun s w i rest h hb turn hp => step_issue turn hb hp h, fun s i hb hi turn => ?_,
    fun s hb turn => step_engine_idle turn hb⟩
  rw [step_completion turn hb hi]
  refine ⟨fun u hu => ?_, fun f hf => ?_⟩
  · rw [State.dropTurn, hu]; rfl
  · rw [State.dropTurn, hf]; exact ⟨rfl, rfl⟩

end Sys2Proof.Machine
end

section
/-! SUPPORT. Runs of the pseudo-instructions (30 R80 to R84) from a quiescent state with an empty schedule, each said once as
the state its steps leave; and a command in flight that the host polls (30 R77). -/

namespace Sys2Proof.Machine

/-! ## What a command does not read -/

/-- A command answers when what it reads is written; COMPUTE reads no stored fingerprint. -/
theorem exec_answers {s : State} {i : Instr} (hD : s.DataWritten) (hS : i ≠ .compute → s.StoredWritten) :
    ∃ u, exec i s = .next u := by
  cases i with
  | compute => exact ⟨_, execCompute_eq_next.2 ⟨hD, rfl⟩⟩
  | check => exact ⟨_, execCheck_eq_next.2 ⟨hD, hS (by decide), rfl⟩⟩
  | repair => exact ⟨_, execRepair_eq_next.2 ⟨hD, hS (by decide), rfl⟩⟩

/-- The state with other contents of BUSY, PEND and the host's program and names, none of which a command reads. -/
def State.withControl (s : State) (busy : Bool) (pend : Option Instr) (prog : List HostOp)
    (names : List (HostName × Word)) : State :=
  { s with busy := busy, pend := pend, prog := prog, names := names }

theorem State.setHost_setPending (s : State) (i : Instr) (p : List HostOp) (ns : List (HostName × Word)) :
    (s.setPending i).setHost p ns = s.withControl true (some i) p ns := rfl

theorem State.emitEvents_eq (s : State) (ps : List (Nat × Nat)) :
    s.emitEvents ps = { s with events :=
      if s.cfg.events = .recorded then s.events ++ ps.map fun p => { row := p.1, column := p.2 } else s.events } := by
  cases h : s.cfg.events <;> simp [State.emitEvents, h]

theorem exec_withControl {i : Instr} {s u : State} (h : exec i s = .next u) (b : Bool) (q : Option Instr)
    (p : List HostOp) (ns : List (HostName × Word)) :
    exec i (s.withControl b q p ns) = .next (u.withControl b q p ns) := by
  obtain ⟨rfl, hD, rfl⟩ | ⟨rfl, hD, hS, rfl⟩ | ⟨rfl, hD, hS, rfl⟩ := exec_cases h
  · exact execCompute_eq_next.2 ⟨hD, rfl⟩
  · exact execCheck_eq_next.2 ⟨hD, hS, rfl⟩
  · refine execRepair_eq_next.2 ⟨hD, hS, ?_⟩
    rw [State.emitEvents_eq, State.emitEvents_eq]; rfl

/-- REPAIR does not read VALID. -/
theorem execRepair_setValid {s u : State} (h : exec .repair s = .next u) (b : Bool) :
    exec .repair (s.setValid b) = .next (u.setValid b) := by
  obtain ⟨hD, hS, rfl⟩ := execRepair_eq_next.1 h
  refine execRepair_eq_next.2 ⟨hD, hS, ?_⟩
  rw [State.emitEvents_eq, State.emitEvents_eq]; rfl

theorem exec_turns {i : Instr} {s u : State} (h : exec i s = .next u) : u.turns = s.turns := by
  obtain ⟨rfl, _, rfl⟩ | ⟨rfl, _, _, rfl⟩ | ⟨rfl, _, _, rfl⟩ := exec_cases h <;> simp

/-! ## RUN (30 R80) -/

/-- RUN: the issue, the completion, and the one read of the POLL. -/
theorem runSteps_run {s u : State} {i : Instr} {x : HostName} {rest : List HostOp} (ht : s.turns = [])
    (hb : s.busy = false) (hp : s.prog = runOps i x ++ rest) (hu : exec i s = .next u) :
    runSteps 3 s = .next (u.withControl false none rest (bindName s.names x (statusWord u.valid false))) := by
  have hcmd := step_cmd (rest := .poll x :: rest) ht hb hp
  rw [State.setHost_setPending] at hcmd
  have hcomplete := step_complete (s := s.withControl true (some i) (.poll x :: rest) s.names) ht rfl rfl
    (exec_withControl hu _ _ _ _)
  have hpoll := step_poll (s := u.withControl false none (.poll x :: rest) s.names) ((exec_turns hu).trans ht) rfl rfl
  exact (runSteps_next hcmd).trans ((runSteps_next hcomplete).trans (runSteps_next hpoll))

/-- Settles O27: RUN leaves the command's result with PEND and BUSY cleared. -/
theorem runIssuesAndWaits : Obligations.RunIssuesAndWaits := by
  intro s i x rest ht hb hp hD hS
  obtain ⟨u, hu⟩ := exec_answers hD hS
  refine ⟨u, _, hu, runSteps_run ht hb hp hu, rfl, rfl, rfl, rfl, rfl, rfl, ?_⟩
  rw [State.withControl, lookup_bind, if_pos rfl]

/-! ## Polls of a command in flight (30 R77) -/

/-- While BUSY = 1 a POLL reads STATUS and stays at the head of the program (30 R79). -/
theorem step_poll_busy {s : State} {x : HostName} {rest : List HostOp} (turn : s.nextTurn = .host) (hb : s.busy = true)
    (hp : s.prog = .poll x :: rest) :
    step s = .next ((s.dropTurn.afterRead 0x0004).setHost (.poll x :: rest) (bindName s.names x s.status)) := by
  have h0 : s.dropTurn.status.getLsbD 0 = true := (statusWord_bits s.validRead s.busy).1.trans hb
  rw [step_host turn, hostTurn, State.dropTurn_prog, hp]
  simp only [hostRead, memRead_status, h0]
  rfl

/-- Any number of polls of a command in flight leave the engine as it was. -/
theorem runSteps_polls {s : State} {n : Nat} {x : HostName} {rest : List HostOp} (ht : s.turns = List.replicate n .host)
    (hb : s.busy = true) (hp : s.prog = .poll x :: rest) :
    ∃ t, runSteps n s = .next t ∧ s.SameEngine t ∧ t.turns = [] ∧ t.prog = .poll x :: rest := by
  induction n generalizing s with
  | zero => exact ⟨s, rfl, ⟨rfl, rfl, rfl, rfl, rfl, rfl, rfl, rfl⟩, ht, hp⟩
  | succ n ih =>
    have turn : s.nextTurn = .host := by simp [State.nextTurn, ht, List.replicate_succ]
    set u := (s.dropTurn.afterRead 0x0004).setHost (.poll x :: rest) (bindName s.names x s.status) with hu
    have same : s.SameEngine u :=
      (s.sameEngine_dropTurn.trans (State.sameEngine_afterRead _ _)).trans (State.sameEngine_setHost _ _ _)
    have htu : u.turns = List.replicate n .host := by simp [hu, ht, List.replicate_succ]
    obtain ⟨t, hrun, hsame, htt, hpt⟩ := ih htu (same.busy.trans hb) rfl
    exact ⟨t, (runSteps_next (step_poll_busy turn hb hp)).trans hrun, same.trans hsame, htt, hpt⟩

/-- Settles O6: the polls change nothing that the command reads or writes, and with the schedule used up the engine moves. -/
theorem pollingNeverPreventsCompletion : Obligations.PollingNeverPreventsCompletion := by
  intro s n x rest i ht hp hb hi hD hS
  obtain ⟨u, hu⟩ := exec_answers hD hS
  obtain ⟨t, hrun, same, htt, hpt⟩ := runSteps_polls ht hb hp
  obtain ⟨v, hv, hm, hvalid, hflips, _, hprog, _, hturns, _⟩ := exec_congr same.cfg same.mem same.valid same.flips hu
  have hlast := step_complete htt (same.busy.trans hb) (same.pend.trans hi) hv
  exact ⟨u, v.clearPending, hu, (runSteps_add hrun).trans (runSteps_next hlast), rfl, rfl, hm, hvalid, hflips,
    hprog.trans hpt, hturns.trans htt⟩

/-! ## A read and a write of the storage (30 R79, R81) -/

theorem nameValue_of_lookup {ns : List (HostName × Word)} {x : HostName} {w : Word} (h : lookupName ns x = some w) :
    nameValue ns x = w := by
  rw [nameValue, h, Option.getD_some]

theorem nameValue_bind_same (ns : List (HostName × Word)) (x : HostName) (w : Word) : nameValue (bindName ns x w) x = w :=
  nameValue_of_lookup (by rw [lookup_bind, if_pos rfl])

/-- The read of one storage word and the write of a word computed from it. -/
theorem runSteps_readWrite {s : State} {off off' : Nat} {x : HostName} {e : HostExpr} {rest : List HostOp} {w v : Word}
    (ht : s.turns = []) (hb : s.busy = false) (hp : s.prog = .read off 4 x :: .write off' 4 e :: rest)
    (hv : memRead s off 4 = .ok w) (he : evalExpr (bindName s.names x w) e = v) (ho : off' % 4 = 0)
    (hr : regionOf s.cfg off' = .data ∨ regionOf s.cfg off' = .fps) :
    runSteps 2 s = .next ((s.writeStorage off' v).setHost rest (bindName s.names x w)) := by
  have hread := step_read ht hb hp hv
  have hwrite := step_write (s := s.setHost (.write off' 4 e :: rest) (bindName s.names x w)) ht hb rfl he ho hr
  exact (runSteps_next hread).trans (runSteps_next hwrite)

theorem runSteps_flip {s : State} {off n : Nat} {x : HostName} {rest : List HostOp} {w : Word} (ht : s.turns = [])
    (hb : s.busy = false) (hp : s.prog = flipOps off n x ++ rest) (ho : off % 4 = 0)
    (hr : regionOf s.cfg off = .data ∨ regionOf s.cfg off = .fps) (hw : s.mem.readWord off = some w) :
    runSteps 2 s = .next ((s.writeStorage off (w ^^^ oneBit n)).setHost rest (bindName s.names x w)) :=
  runSteps_readWrite ht hb hp (memRead_storage hb ho (hr.imp_right .inl) hw)
    (by simp only [evalExpr, nameValue_bind_same, oneBit]) ho hr

/-- Settles O28: both are the flip of one word of the Protected Block. -/
theorem flipFlipsOneBit : Obligations.FlipFlipsOneBit := by
  intro s n x rest w ht hb _
  refine ⟨fun r hr hp hw => ⟨_, runSteps_flip ht hb hp ?_ (.inl (regionOf_dataOff hr)) hw, readWord_writeWord_same _ _ _,
      sameOutside_writeWord _ _ _⟩,
    fun k hk hp hw => ⟨_, runSteps_flip ht hb hp ?_ (.inr (regionOf_fpsOff hk)) hw, readWord_writeWord_same _ _ _,
      sameOutside_writeWord _ _ _⟩⟩
  · simp only [dataOff]; omega
  · simp only [fpsOff]; omega

/-! ## The host's own steps between commands (30 R79) -/

section
variable {s : State} {x : HostName} {rest : List HostOp} {ns : List (HostName × Word)}

theorem step_withControl_read {off : Nat} {v : Word} (ht : s.turns = [])
    (hv : memRead (s.withControl false none (.read off 4 x :: rest) ns) off 4 = .ok v) :
    step (s.withControl false none (.read off 4 x :: rest) ns) =
      .next (s.withControl false none rest (bindName ns x v)) := step_read ht rfl rfl hv

theorem step_withControl_set {e : HostExpr} {v : Word} (ht : s.turns = []) (he : evalExpr ns e = v) :
    step (s.withControl false none (.set x e :: rest) ns) = .next (s.withControl false none rest (bindName ns x v)) :=
  step_set ht rfl rfl he

theorem step_withControl_skipIf {e : HostExpr} {n : Nat} {v : Word} (ht : s.turns = []) (he : evalExpr ns e = v) :
    step (s.withControl false none (.skipIf e n :: rest) ns) =
      .next (s.withControl false none (if v = 0#32 then rest else rest.drop n) ns) := step_skipIf ht rfl rfl he

end

/-! ## VERIFY (30 R83) -/

/-- VERIFY: one CHECK, then its verdict from bit 1 of STATUS; no name changes but the two it binds. -/
theorem runSteps_verify {s : State} {b : Bool} {x ok : HostName} {rest : List HostOp} (ht : s.turns = [])
    (hb : s.busy = false) (hp : s.prog = verifyOps x ok ++ rest) (hcheck : exec .check s = .next (s.setValid b)) :
    ∃ ns, runSteps 5 s = .next ((s.setValid b).withControl false none rest ns) ∧
      lookupName ns ok = some (if b then 1#32 else 0#32) ∧
      ∀ y, y ≠ x → y ≠ ok → lookupName ns y = lookupName s.names y := by
  have hrun := runSteps_run (rest := .read 0x0004 4 x :: .set ok (.bit (.name x) 1) :: rest) ht hb hp hcheck
  have hstatus (p ns) : memRead ((s.setValid b).withControl false none p ns) 0x0004 4 = .ok (statusWord b false) := by
    rw [memRead_status, status_idle rfl]; rfl
  have heval (ns) : evalExpr (bindName ns x (statusWord b false)) (.bit (.name x) 1) = if b then 1#32 else 0#32 := by
    simp only [evalExpr, nameValue_bind_same, (statusWord_bits b false).2.1]
  have htu : (s.setValid b).turns = [] := ht
  refine ⟨bindName (bindName (bindName s.names x (statusWord b false)) x (statusWord b false)) ok
    (if b then 1#32 else 0#32), ?_, ?_, fun y hx hok => ?_⟩
  · rw [runSteps_add (k := 2) hrun, runSteps_next (step_withControl_read htu (hstatus _ _)),
      runSteps_next (step_withControl_set htu (heval _)), runSteps_zero, State.setValid_valid]
  · rw [lookup_bind, if_pos rfl]
  · rw [lookup_bind, if_neg hok, lookup_bind, if_neg hx, lookup_bind, if_neg hx]

/-- Settles O30: VERIFY leaves the verdict in VALID and in its name, and nothing else. -/
theorem verifyReadsTheVerdict : Obligations.VerifyReadsTheVerdict := by
  intro s x ok rest ht hb hp hD hS
  obtain ⟨ns, hrun, hok, _⟩ := runSteps_verify ht hb hp (execCheck_eq_next.2 ⟨hD, hS, rfl⟩)
  refine ⟨_, hrun, rfl, rfl, rfl, rfl, rfl, ?_⟩
  simp only [decide_eq_true_eq] at hok
  exact hok

/-! ## SCRUB (30 R84) -/

theorem scrubOps_append (x ok0 cnt ok1 : HostName) (rest : List HostOp) :
    scrubOps x ok0 cnt ok1 ++ rest =
      verifyOps x ok0 ++ .skipIf (.name ok0) 8 :: (runOps .repair x ++ .read 0x0008 4 cnt ::
        (verifyOps x ok1 ++ .skipIf (.const 1#32) 2 :: .set cnt (.const 0#32) :: .set ok1 (.const 1#32) :: rest)) := rfl

/-- SCRUB where the first check says valid: the repair is left out and its names are set. -/
theorem runSteps_scrub_valid {s : State} {x ok0 cnt ok1 : HostName} {rest : List HostOp} (ht : s.turns = [])
    (hb : s.busy = false) (hp : s.prog = scrubOps x ok0 cnt ok1 ++ rest) (hnames : [x, ok0, cnt, ok1].Nodup)
    (hcheck : exec .check s = .next (s.setValid true)) :
    ∃ ns, runSteps 8 s = .next ((s.setValid true).withControl false none rest ns) ∧
      lookupName ns ok0 = some 1#32 ∧ lookupName ns cnt = some 0#32 ∧ lookupName ns ok1 = some 1#32 := by
  rw [scrubOps_append] at hp
  obtain ⟨ns, hverify, hok0, _⟩ := runSteps_verify ht hb hp hcheck
  have htu : (s.setValid true).turns = [] := ht
  have hskip : evalExpr ns (.name ok0) = 1#32 := nameValue_of_lookup hok0
  refine ⟨bindName (bindName ns cnt 0#32) ok1 1#32, ?_, ?_⟩
  · rw [runSteps_add (k := 3) hverify, runSteps_next (step_withControl_skipIf htu hskip), if_neg (by decide)]
    exact (runSteps_next (step_withControl_set htu rfl)).trans (runSteps_next (step_withControl_set htu rfl))
  · simp only [List.nodup_cons, List.mem_cons, List.not_mem_nil, not_or] at hnames
    obtain ⟨-, ⟨h0c, h01, -⟩, ⟨hc1, -⟩, -⟩ := hnames
    simp [lookup_bind, hok0, h0c, h01, hc1]

/-- What SCRUB runs where the first check says invalid: the repair, the read of its count, and the second check. -/
theorem runSteps_repairVerify {s u : State} {b : Bool} {x cnt ok : HostName} {rest : List HostOp} (ht : s.turns = [])
    (hb : s.busy = false) (hp : s.prog = runOps .repair x ++ .read 0x0008 4 cnt :: (verifyOps x ok ++ rest))
    (hrepair : exec .repair s = .next u) (hcheck : exec .check u = .next (u.setValid b)) :
    ∃ ns, runSteps 9 s = .next ((u.setValid b).withControl false none rest ns) ∧
      lookupName ns ok = some (if b then 1#32 else 0#32) ∧
      ∀ y, y ≠ x → y ≠ ok → lookupName ns y = if y = cnt then some u.flips else lookupName s.names y := by
  have htu : u.turns = [] := (exec_turns hrepair).trans ht
  have hrun := runSteps_run ht hb hp hrepair
  set st := statusWord u.valid false
  have hflips (p ns) : memRead (u.withControl false none p ns) 0x0008 4 = .ok u.flips := memRead_flips rfl
  obtain ⟨ns, hverify, hok, hother⟩ := runSteps_verify
    (s := u.withControl false none (verifyOps x ok ++ rest) (bindName (bindName s.names x st) cnt u.flips)) htu rfl rfl
    (exec_withControl hcheck _ _ _ _)
  refine ⟨ns, ?_, hok, fun y hx hy => ?_⟩
  · rw [runSteps_add (k := 6) hrun, runSteps_next (step_withControl_read htu (hflips _ _)), hverify]
    rfl
  · rw [hother y hx hy, State.withControl, lookup_bind, lookup_bind, if_neg hx]

/-- SCRUB where the first check says invalid: the repair, its count, and the second check's verdict. -/
theorem runSteps_scrub_repair {s u : State} {b : Bool} {x ok0 cnt ok1 : HostName} {rest : List HostOp} (ht : s.turns = [])
    (hb : s.busy = false) (hp : s.prog = scrubOps x ok0 cnt ok1 ++ rest) (hnames : [x, ok0, cnt, ok1].Nodup)
    (hcheck : exec .check s = .next (s.setValid false)) (hrepair : exec .repair (s.setValid false) = .next u)
    (hrecheck : exec .check u = .next (u.setValid b)) :
    ∃ ns, runSteps 16 s = .next ((u.setValid b).withControl false none rest ns) ∧
      lookupName ns ok0 = some 0#32 ∧ lookupName ns cnt = some u.flips ∧
      lookupName ns ok1 = some (if b then 1#32 else 0#32) := by
  rw [scrubOps_append] at hp
  simp only [List.nodup_cons, List.mem_cons, List.not_mem_nil, not_or] at hnames
  obtain ⟨⟨hx0, hxc, -⟩, ⟨h0c, h01, -⟩, ⟨hc1, -⟩, -⟩ := hnames
  obtain ⟨ns₀, hverify, hok0, _⟩ := runSteps_verify ht hb hp hcheck
  have htv : (s.setValid false).turns = [] := ht
  have htu : u.turns = [] := (exec_turns hrepair).trans ht
  have hgo : evalExpr ns₀ (.name ok0) = 0#32 := nameValue_of_lookup hok0
  obtain ⟨ns, hthen, hok1, hother⟩ := runSteps_repairVerify (s := (s.setValid false).withControl false none _ ns₀)
    (rest := .skipIf (.const 1#32) 2 :: .set cnt (.const 0#32) :: .set ok1 (.const 1#32) :: rest) htv rfl rfl
    (exec_withControl hrepair _ _ _ _) (exec_withControl hrecheck _ _ _ _)
  have htlast : (u.setValid b).turns = [] := htu
  refine ⟨ns, ?_, ?_, ?_, hok1⟩
  · rw [runSteps_add (k := 11) hverify, runSteps_next (step_withControl_skipIf htv hgo), if_pos rfl,
      runSteps_add (k := 1) hthen]
    exact runSteps_next (step_withControl_skipIf htlast rfl)
  · rw [hother ok0 (Ne.symm hx0) h01, if_neg h0c]; exact hok0
  · rw [hother cnt (Ne.symm hxc) hc1, if_pos rfl]; rfl

/-- Settles O57: a check that says valid leaves the repair out; after one that says invalid come REPAIR and its check, which
read what they would have read at once. -/
theorem scrubFollowsTheFirstVerdict : Obligations.ScrubFollowsTheFirstVerdict := by
  intro s x ok0 cnt ok1 rest ht hb hp hnames hD hS
  constructor
  · intro hv
    obtain ⟨ns, hrun, hok0, hcnt, hok1⟩ := runSteps_scrub_valid ht hb hp hnames
      (execCheck_eq_next.2 ⟨hD, hS, by rw [decide_eq_true hv]⟩)
    exact ⟨_, hrun, rfl, rfl, rfl, rfl, rfl, hok0, hcnt, hok1⟩
  · intro hv
    obtain ⟨u, hu⟩ := exec_answers (i := .repair) hD fun _ => hS
    obtain ⟨_, hDu, hSu, _⟩ := repair_state hu
    obtain ⟨ns, hrun, hok0, hcnt, hok1⟩ := runSteps_scrub_repair ht hb hp hnames
      (execCheck_eq_next.2 ⟨hD, hS, by rw [decide_eq_false hv]⟩) (execRepair_setValid hu false)
      (execCheck_eq_next.2 ⟨hDu, hSu, rfl⟩)
    refine ⟨u, _, hu, hrun, rfl, rfl, rfl, rfl, rfl, hok0, hcnt, hok1.trans ?_⟩
    simp only [decide_eq_true_eq]
    rfl

/-! ## STAMP (30 R82) -/

/-- A block whose stored words are the words of its DATA's fingerprint is consistent (10 R28). -/
theorem consistent_of_readWord_fpsOff {s : State} (hD : s.DataWritten)
    (hS : ∀ k < s.cfg.fpWords, s.mem.readWord (fpsOff k) = some (s.fpOfData.words.getD k 0#32)) : s.Consistent := by
  refine ⟨hD, fun k hk => by rw [hS k hk]; rfl, ?_⟩
  refine Fingerprint.ext_words (storedOf_sized s) (fpOfData_sized s) fun k hk => ?_
  rw [storedOf_words_getD s hk, State.storedFpWord, hS k hk, Option.getD_some]

/-- Writes words of the stored fingerprint from word `j` on. -/
def State.writeStored (s : State) (j : Nat) (ws : List Word) : State := { s with mem := s.mem.writeWords (fpsOff j) ws }

theorem State.writeStored_cons (s : State) (j : Nat) (w : Word) (ws : List Word) :
    s.writeStored j (w :: ws) = (s.writeStorage (fpsOff j) w).writeStored (j + 1) ws := rfl

theorem readWord_writeStored (s : State) {ws : List Word} {k : Nat} (hk : k < ws.length) :
    (s.writeStored 0 ws).mem.readWord (fpsOff k) = some (ws.getD k 0#32) := by
  rw [State.writeStored, fpsOff_eq k, readWord_writeWords_same _ _ _ hk]

/-- The operations of STAMP that copy `n` fresh words to the stored fingerprint, from word `j` on (70 R151). -/
def copyOps (x : HostName) (j n : Nat) : List HostOp :=
  (List.range' j n).flatMap fun k => [.read (fpfOff k) 4 x, .write (fpsOff k) 4 (.name x)]

theorem stampOps_eq (c : Config) (x : HostName) : stampOps c x = runOps .compute x ++ copyOps x 0 c.fpWords := by
  rw [stampOps, copyOps, List.range_eq_range']

theorem copyOps_succ (x : HostName) (j n : Nat) :
    copyOps x j (n + 1) = .read (fpfOff j) 4 x :: .write (fpsOff j) 4 (.name x) :: copyOps x (j + 1) n := rfl

/-- The copy writes to the stored fingerprint the words that the fresh window holds. -/
theorem runSteps_copyOps {x : HostName} {rest : List HostOp} (ws : List Word) {s : State} {j : Nat} (ht : s.turns = [])
    (hb : s.busy = false) (hp : s.prog = copyOps x j ws.length ++ rest) (hj : j + ws.length ≤ s.cfg.fpWords)
    (hw : ∀ k < ws.length, s.mem.readWord (fpfOff (j + k)) = some (ws.getD k 0#32)) :
    ∃ ns, runSteps (2 * ws.length) s = .next ((s.writeStored j ws).setHost rest ns) := by
  induction ws generalizing s j with
  | nil =>
    have hrest : s.prog = rest := hp
    exact ⟨s.names, by subst hrest; rfl⟩
  | cons w ws ih =>
    rw [List.length_cons] at hj hw
    rw [List.length_cons, copyOps_succ, List.cons_append, List.cons_append] at hp
    have hread : memRead s (fpfOff j) 4 = .ok w :=
      memRead_storage hb (by simp only [fpfOff]; omega) (.inr (.inr (regionOf_fpfOff (by omega)))) (hw 0 (by omega))
    have hcopy := runSteps_readWrite ht hb hp hread (nameValue_bind_same _ _ _) (by simp only [fpsOff]; omega)
      (.inr (regionOf_fpsOff (by omega)))
    have hw' : ∀ k < ws.length, (s.writeStorage (fpsOff j) w).mem.readWord (fpfOff (j + 1 + k)) = some (ws.getD k 0#32) := by
      intro k hk
      have hsep : fpsOff j + 4 ≤ fpfOff (j + 1 + k) := by
        have := fpWords_le s.cfg
        simp only [fpsOff, fpfOff]; omega
      rw [State.writeStorage_mem, readWord_writeWord_other _ _ (.inr hsep), Nat.add_right_comm, Nat.add_assoc,
        hw (k + 1) (by omega), List.getD_cons_succ]
    obtain ⟨ns, hrest⟩ := ih (s := (s.writeStorage (fpsOff j) w).setHost _ (bindName s.names x w)) (j := j + 1) ht hb rfl
      (by rw [Nat.add_right_comm]; exact hj) hw'
    refine ⟨ns, ?_⟩
    rw [List.length_cons, show 2 * (ws.length + 1) = 2 + 2 * ws.length by omega, runSteps_add hcopy]
    exact hrest

/-- STAMP: COMPUTE, then the copy of its words. -/
theorem runSteps_stamp {s : State} {x : HostName} {rest : List HostOp} (ht : s.turns = []) (hb : s.busy = false)
    (hp : s.prog = stampOps s.cfg x ++ rest) (hD : s.DataWritten) :
    ∃ ns, runSteps (3 + 2 * s.cfg.fpWords) s =
      .next (((s.writeFresh s.fpOfData).writeStored 0 s.fpOfData.words).withControl false none rest ns) := by
  rw [stampOps_eq, List.append_assoc] at hp
  rw [← length_fpOfData_words] at hp ⊢
  have hrun := runSteps_run ht hb hp (execCompute_eq_next.2 ⟨hD, rfl⟩)
  have hfresh : ∀ k < s.fpOfData.words.length,
      (s.writeFresh s.fpOfData).mem.readWord (fpfOff (0 + k)) = some (s.fpOfData.words.getD k 0#32) := fun k hk => by
    rw [Nat.zero_add, readWord_writeFresh (length_fpOfData_words s ▸ hk)]
  obtain ⟨ns, hcopy⟩ := runSteps_copyOps (rest := rest) (j := 0) s.fpOfData.words
    (s := (s.writeFresh s.fpOfData).withControl false none _ (bindName s.names x (statusWord s.valid false)))
    ht rfl rfl (by rw [length_fpOfData_words, Nat.zero_add]; exact le_rfl) hfresh
  exact ⟨ns, (runSteps_add hrun).trans hcopy⟩

/-- Settles O29: STAMP leaves the fingerprint of DATA in both fingerprint windows. -/
theorem stampMakesTheBlockConsistent : Obligations.StampMakesTheBlockConsistent := by
  intro s x rest ht hb hp hD
  obtain ⟨ns, hrun⟩ := runSteps_stamp ht hb hp hD
  set t := ((s.writeFresh s.fpOfData).writeStored 0 s.fpOfData.words).withControl false none rest ns
  have hread : ∀ r < s.cfg.R, t.mem.readWord (dataOff r) = s.mem.readWord (dataOff r) := fun r hr => by
    have hR := R_le s.cfg
    have hsep : dataOff r + 4 ≤ fpsOff 0 := by simp only [dataOff, fpsOff]; omega
    exact (readWord_writeWords_other _ _ _ (.inl hsep)).trans
      (readWord_writeWords_other _ _ _ (.inl (hsep.trans fpsOff_le_fpfOff)))
  obtain ⟨hDt, hdata, hfp⟩ := data_congr (s := s) (t := t) rfl hread
  refine ⟨t, hrun, consistent_of_readWord_fpsOff (hDt.2 hD) fun k hk => ?_, hdata, rfl, rfl, rfl, rfl⟩
  rw [hfp]
  exact readWord_writeStored (s.writeFresh s.fpOfData) (length_fpOfData_words s ▸ hk)

end Sys2Proof.Machine
end

section
/-! SUPPORT. One flipped data bit (40 R101, 42 R120): the bits of the fresh fingerprint as line parities, the lines that a
flip changes, and what REPAIR then locates. -/

namespace Sys2Proof.Machine

/-! ## Bits of the fresh fingerprint as line parities (40 R85 to R90) -/

theorem parity32_rowWord (D : List Word) {r : Nat} (hr : r < D.length) : parity32 (rowWord D r) = lineParity D .row r := by
  have hline : lineParity D .row r = xorBelow 32 fun c => matrixBit D r c := by
    rw [lineParity, xorBelow_single _ hr fun j _ hj => xorBelow_eq_false fun c _ => by simp [LineFamily.lineOf, hj]]
    exact xorBelow_congr fun c _ => by simp [LineFamily.lineOf]
  rw [hline, parity32, ← xorBelow_reverse]
  rfl

theorem getLsbD_vPar_eq_lineParity (D : List Word) {c : Nat} (hc : c < 32) :
    (vPar D).getLsbD (31 - c) = lineParity D .column c := by
  rw [getLsbD_vPar, lineParity]
  refine xorBelow_congr fun r _ => ?_
  rw [xorBelow_single _ hc fun j _ hj => by simp [LineFamily.lineOf, hj]]
  simp [LineFamily.lineOf, matrixBit]

/-- Between the fingerprints of two DATA arrays, REPAIR's four mismatches of a pair are those of its four lines (42 R114 to
R117). -/
theorem flipsPair_freshFp {B : Nat} {D E : List Word} (hD : D.length = 32 * B) (hE : E.length = 32 * B) {i j : Nat}
    (hi : i < 32 * B) (hj : j < 32) :
    flipsPair (freshFp B D) (freshFp B E) i j = true ↔
      ∀ f : LineFamily, lineParity D f (f.lineOf i j) ≠ lineParity E f (f.lineOf i j) := by
  have hrow {F : List Word} (hF : F.length = 32 * B) :
      ((hPar B F).getD (i / 32) 0#32).getLsbD (i % 32) = lineParity F .row i := by
    rw [hPar_getD F (by omega), getLsbD_ofBits, show 32 * (i / 32) + i % 32 = i by omega, parity32_rowWord F (by omega)]
    simp [Nat.mod_lt]
  have hcol (F : List Word) := getLsbD_vPar_eq_lineParity F hj
  have hsd (F : List Word) := msb_diagPar (B := B) F (.inl rfl) (show i + j < 32 * B + 31 by omega)
  have hbd (F : List Word) := msb_diagPar (B := B) F (.inr rfl) (show i + 31 - j < 32 * B + 31 by omega)
  have hall (p : LineFamily → Prop) : (∀ f, p f) ↔ (p .row ∧ p .column) ∧ p .slash ∧ p .backslash :=
    ⟨fun h => ⟨⟨h _, h _⟩, h _, h _⟩, fun ⟨⟨h1, h2⟩, h3, h4⟩ f => by cases f <;> assumption⟩
  simp only [hall, flipsPair, suspectRow, suspectColumn, lineMismatch, freshFp, sdPar, bdPar, Bool.and_eq_true,
    bne_iff_ne, hrow hD, hrow hE, hcol, hsd, hbd, LineFamily.lineOf]

/-! ## The lines a flip changes (40 R101) -/

theorem matrixBit_flipPair (D : List Word) {p : Nat × Nat} (hp : p.1 < D.length) (hp2 : p.2 < 32) {r c : Nat} (hc : c < 32) :
    matrixBit (flipPair D p) r c = xor (matrixBit D r c) (decide (r = p.1) && decide (c = p.2)) := by
  rw [matrixBit, rowWord_flipPair D r hp]
  by_cases hr : r = p.1
  · rw [if_pos hr, BitVec.getLsbD_xor, getLsbD_one_shiftLeft (by omega), matrixBit]
    congr 1
    simp only [hr, decide_true, Bool.true_and]
    exact decide_eq_decide.2 (by omega)
  · simp [hr, matrixBit]

/-- A flip changes in each family the one line of its bit. -/
theorem lineParity_flipPair (D : List Word) {p : Nat × Nat} (hp : p.1 < D.length) (hp2 : p.2 < 32) (f : LineFamily) (d : Nat) :
    lineParity (flipPair D p) f d = xor (lineParity D f d) (f.lineOf p.1 p.2 == d) := by
  have hbit : ∀ r < D.length, xorBelow 32 (fun c => f.lineOf r c == d && matrixBit (flipPair D p) r c) =
      xor (xorBelow 32 fun c => f.lineOf r c == d && matrixBit D r c)
        (decide (r = p.1) && (f.lineOf r p.2 == d)) := fun r _ => by
    have hone : xorBelow 32 (fun c => f.lineOf r c == d && (decide (r = p.1) && decide (c = p.2))) =
        (decide (r = p.1) && (f.lineOf r p.2 == d)) := by
      rw [xorBelow_single _ hp2 fun j _ hj => by simp [hj]]
      simp [Bool.and_comm]
    rw [← hone, ← xorBelow_xor]
    exact xorBelow_congr fun c hc => by rw [matrixBit_flipPair D hp hp2 hc, Bool.and_xor_distrib_left]
  rw [lineParity, length_flipPair, xorBelow_congr hbit, xorBelow_xor]
  congr 1
  rw [xorBelow_single _ hp fun j _ hj => by simp [hj]]
  simp

/-! ## The pair REPAIR locates (42 R120) -/

theorem nodup_allPairs (R : Nat) : (allPairs R).Nodup := List.Nodup.product List.nodup_range List.nodup_range

theorem repairPairs_self (R : Nat) (f : Fingerprint) : repairPairs R f f = [] := by
  simp [repairPairs, flipsPair, suspectRow]

/-- Against the fingerprint of DATA before one flip, the pair that was flipped is located and no other. -/
theorem repairPairs_flipPair {B : Nat} {D : List Word} (hD : D.length = 32 * B) {p : Nat × Nat} (hp : p.1 < 32 * B)
    (hp2 : p.2 < 32) : repairPairs (32 * B) (freshFp B D) (freshFp B (flipPair D p)) = [p] := by
  have hE : (flipPair D p).length = 32 * B := (length_flipPair D p).trans hD
  have hmem : p ∈ allPairs (32 * B) := mem_allPairs.2 ⟨hp, hp2⟩
  have hpred : ∀ q ∈ allPairs (32 * B),
      flipsPair (freshFp B D) (freshFp B (flipPair D p)) q.1 q.2 = decide (q = p) := fun q hq => by
    obtain ⟨hq1, hq2⟩ := mem_allPairs.1 hq
    have hlines : flipsPair (freshFp B D) (freshFp B (flipPair D p)) q.1 q.2 = true ↔
        ∀ f : LineFamily, f.lineOf p.1 p.2 = f.lineOf q.1 q.2 := by
      rw [flipsPair_freshFp hD hE hq1 hq2]
      refine forall_congr' fun f => ?_
      rw [lineParity_flipPair D (hD ▸ hp) hp2]
      cases lineParity D f (f.lineOf q.1 q.2) <;> simp
    rw [Bool.eq_iff_iff, hlines, decide_eq_true_iff]
    constructor
    · exact fun h => Prod.ext (h .row).symm (h .column).symm
    · rintro rfl f; rfl
  rw [repairPairs, List.filter_congr hpred, List.filter_eq, List.count_eq_one_of_mem (nodup_allPairs _) hmem,
    List.replicate_one]

theorem flipPair_flipPair (D : List Word) (p : Nat × Nat) : flipPair (flipPair D p) p = D := by
  have hid : (fun w : Word => w ^^^ 1#32 <<< (31 - p.2)) ∘ (· ^^^ 1#32 <<< (31 - p.2)) = id := by
    funext w; simp
  rw [flipPair, flipPair, List.modify_modify_eq, hid, List.modify_id]

/-! ## A block with one flipped data bit (20 R66) -/

/-- What a flip of bit `n` by weight of row `r` leaves of the block: column `31 - n` of that row is flipped (10 R22). -/
theorem block_flipDataBit {s : State} {r n : Nat} (hD : s.DataWritten) (hr : r < s.cfg.R) (hn : n < 32) :
    (s.flipDataBit r n).DataWritten ∧ (s.flipDataBit r n).dataOf = flipPair s.dataOf (r, 31 - n) ∧
      ((s.flipDataBit r n).StoredWritten ↔ s.StoredWritten) ∧ (s.flipDataBit r n).storedOf = s.storedOf := by
  have hother {off : Nat} (h : off + 4 ≤ dataOff r ∨ dataOff r + 4 ≤ off) :
      (s.flipDataBit r n).mem.readWord off = s.mem.readWord off := readWord_flipBit_other _ n h
  have hsame : (s.flipDataBit r n).mem.readWord (dataOff r) = (s.mem.readWord (dataOff r)).map (· ^^^ (1#32 <<< n)) :=
    readWord_flipBit_same _ _ _
  have hrow : ∀ q < s.cfg.R, (s.flipDataBit r n).mem.readWord (dataOff q) =
      some (if q = r then s.dataRow q ^^^ (1#32 <<< n) else s.dataRow q) := fun q hq => by
    obtain ⟨w, hw⟩ := Option.isSome_iff_exists.1 (hD q hq)
    by_cases h : q = r
    · subst h; rw [hsame, State.dataRow, hw, if_pos rfl]; rfl
    · rw [hother (by simp only [dataOff]; omega), State.dataRow, hw, if_neg h]; rfl
  refine ⟨fun q hq => by rw [hrow q hq]; rfl, ?_, stored_congr rfl fun k _ => hother ?_⟩
  · refine wordList_ext (by simp) fun q hq => ?_
    have hq : q < s.cfg.R := by simpa using hq
    have hflip := rowWord_flipPair s.dataOf (p := (r, 31 - n)) q (by simpa using hr)
    rw [rowWord_dataOf s hq, show 31 - (31 - n) = n by omega] at hflip
    refine (rowWord_dataOf (s.flipDataBit r n) hq).trans (Eq.trans ?_ hflip.symm)
    rw [State.dataRow, hrow q hq, Option.getD_some]
  · have hR := R_le s.cfg
    simp only [dataOff, fpsOff]; omega

/-- Writing back the words of DATA over bytes changed in DATA alone restores every byte. -/
theorem readByte_writeWords_dataOf {s : State} {m : Memory} (hD : s.DataWritten)
    (hm : sameOutside s.mem m (dataOff 0) (dataEnd s.cfg)) (a : Nat) :
    (m.writeWords (dataOff 0) s.dataOf).readByte a = s.mem.readByte a := by
  have hend : dataEnd s.cfg = dataOff 0 + 4 * s.cfg.R := dataOff_eq _
  rw [readByte_writeWords, length_dataOf]
  split
  · next h =>
    set q := (a - dataOff 0) / 4 with hq
    have hqR : q < s.cfg.R := by omega
    obtain ⟨w, hw⟩ := Option.isSome_iff_exists.1 (hD q hqR)
    have hbyte := readWord_eq_some.1 hw ((a - dataOff 0) % 4) (by omega)
    have hrow : s.dataOf.getD q 0#32 = w := (rowWord_dataOf s hqR).trans (by rw [State.dataRow, hw]; rfl)
    rw [dataOff_eq q, show dataOff 0 + 4 * q + (a - dataOff 0) % 4 = a by omega] at hbyte
    rw [hrow, hbyte]
  · next h => exact hm a (by omega)

/-- With one data bit of a consistent block flipped, REPAIR locates that bit alone. -/
theorem flipped_flipDataBit {s : State} {r n : Nat} (hs : s.Consistent) (hr : r < s.cfg.R) (hn : n < 32) :
    (s.flipDataBit r n).flipped = [(r, 31 - n)] := by
  obtain ⟨hD, _, hfp⟩ := hs
  obtain ⟨_, hdata, _, hstored⟩ := block_flipDataBit hD hr hn
  rw [State.flipped, hstored, hfp, State.fpOfData, State.fpOfData, hdata]
  exact repairPairs_flipPair (length_dataOf s) hr (by omega)

theorem storedOf_ne_of_flipped {s : State} (h : s.flipped ≠ []) : s.storedOf ≠ s.fpOfData := fun heq =>
  h (by rw [State.flipped, heq, repairPairs_self])

/-- REPAIR of a consistent block with one flipped data bit restores it (42 R120). -/
theorem repair_flipDataBit {s u : State} {r n : Nat} (hs : s.Consistent) (hr : r < s.cfg.R) (hn : n < 32)
    (hu : exec .repair (s.flipDataBit r n) = .next u) :
    (∀ a, u.mem.readByte a = s.mem.readByte a) ∧ u.flips = 1#32 ∧ u.storedOf = u.fpOfData := by
  obtain ⟨_, hdata, _, hstored⟩ := block_flipDataBit hs.1 hr hn
  obtain ⟨_, _, _, _, hstored', hfp', hflips, hmem⟩ := repair_state hu
  have hrestored : applyFlips (s.flipDataBit r n).dataOf (s.flipDataBit r n).flipped = s.dataOf := by
    rw [flipped_flipDataBit hs hr hn, hdata]
    exact flipPair_flipPair _ _
  rw [hrestored] at hfp' hmem
  refine ⟨fun a => ?_, ?_, ?_⟩
  · rw [hmem]
    refine readByte_writeWords_dataOf hs.1 (fun b hb => readByte_flipBit_other _ _ ?_) a
    simp only [dataEnd, dataOff] at hb ⊢
    omega
  · rw [hflips, flipped_flipDataBit hs hr hn]; rfl
  · rw [hstored', hstored, hs.2.2, hfp']; rfl

/-- Settles O31: the first check says invalid, REPAIR restores the block, and the second check says valid. -/
theorem scrubCorrectsOneFlippedBit : Obligations.ScrubCorrectsOneFlippedBit := by
  rintro s₀ s r n x ok0 cnt ok1 rest hs hr hn rfl ht hb hp hnames
  obtain ⟨hD, _, hS, _⟩ := block_flipDataBit hs.1 hr hn
  have hinvalid := storedOf_ne_of_flipped (by rw [flipped_flipDataBit hs hr hn]; exact List.cons_ne_nil _ _)
  obtain ⟨u, t, hu, hrun, hmem, hflips, hvalid, hbusy, hprog, hok0, hcnt, hok1⟩ :=
    (scrubFollowsTheFirstVerdict _ x ok0 cnt ok1 rest ht hb hp hnames hD (hS.2 hs.2.1)).2 hinvalid
  obtain ⟨hbytes, hcount, hfixed⟩ := repair_flipDataBit hs hr hn hu
  rw [if_pos hfixed] at hok1
  exact ⟨t, hrun, fun a => by rw [hmem, hbytes], hflips.trans hcount, hvalid.trans (decide_eq_true hfixed), hbusy, hprog,
    hok0, hcount ▸ hcnt, hok1⟩

end Sys2Proof.Machine
end

section
/-! SUPPORT. The lines of the four families (40 R85): that they partition the data bits, and how many bits each
holds (40 R102). -/

namespace Sys2Proof.Machine

/-! ## The lines of a family (40 R85) -/

theorem LineFamily.lineOf_lt_lineCount {B r c : Nat} (f : LineFamily) (hr : r < 32 * B) (hc : c < 32) :
    f.lineOf r c < f.lineCount B := by
  cases f <;> simp only [lineOf, lineCount] <;> omega

/-- Every line has a bit: a diagonal line `d` has one in row `d - 31`, which is row 0 where `d < 31`. -/
theorem LineFamily.exists_lineOf_eq {B d : Nat} (f : LineFamily) (hB : 1 ≤ B) (hd : d < f.lineCount B) :
    ∃ r < 32 * B, ∃ c < 32, f.lineOf r c = d := by
  cases f <;> simp only [lineCount] at hd
  case row => exact ⟨d, hd, 0, by omega, rfl⟩
  case column => exact ⟨0, by omega, d, hd, rfl⟩
  case slash => exact ⟨d - 31, by omega, d - (d - 31), by omega, by simp only [lineOf]; omega⟩
  case backslash => exact ⟨d - 31, by omega, d - 31 + 31 - d, by omega, by simp only [lineOf]; omega⟩

/-- Each bit is counted on one line, its own. -/
theorem xorBelow_lineParity {B : Nat} {D : List Word} (f : LineFamily) (hD : D.length = 32 * B) :
    xorBelow (f.lineCount B) (fun d => lineParity D f d) =
      xorBelow (32 * B) fun r => xorBelow 32 fun c => matrixBit D r c := by
  simp only [lineParity, hD]
  rw [xorBelow_comm]
  refine xorBelow_congr fun r hr => ?_
  rw [xorBelow_comm]
  refine xorBelow_congr fun c hc => ?_
  rw [xorBelow_single _ (f.lineOf_lt_lineCount hr hc) fun d _ hd => by simp [Ne.symm hd]]
  simp

/-- Settles O34: the bounds of the lines, a bit of each, and each bit counted on its own line. -/
theorem linesOfAFamilyPartitionTheBits : Obligations.LinesOfAFamilyPartitionTheBits := by
  intro B D f hB hD
  exact ⟨fun r hr c hc => ⟨f.lineOf_lt_lineCount hr hc, by cases f <;> rfl⟩, by cases f <;> rfl,
    fun d hd => f.exists_lineOf_eq hB hd, xorBelow_lineParity f hD⟩

/-! ## The number of bits on a line (40 R102) -/

/-- A line whose bits are listed once each by `place` has as many bits as the list. -/
theorem lineSize_eq_of_places {R d n : Nat} {f : LineFamily} (place : Nat → Nat × Nat)
    (hinj : ∀ i j, place i = place j → i = j)
    (hmem : ∀ r c, (∃ i < n, place i = (r, c)) ↔ (r < R ∧ c < 32) ∧ f.lineOf r c = d) : lineSize R f d = n := by
  have hperm : ((allPairs R).filter fun p => f.lineOf p.1 p.2 == d).Perm ((List.range n).map place) := by
    refine (List.perm_ext_iff_of_nodup ((nodup_allPairs R).filter _)
      (List.nodup_range.map hinj)).2 fun ⟨r, c⟩ => ?_
    rw [List.mem_filter, mem_allPairs, beq_iff_eq, List.mem_map, ← hmem]
    simp only [List.mem_range]
  rw [lineSize, hperm.length_eq, List.length_map, List.length_range]

theorem lineSize_row {R r : Nat} (hr : r < R) : lineSize R .row r = 32 := by
  refine lineSize_eq_of_places (fun c => (r, c)) (fun i j h => by simpa using h) fun r' c => ?_
  simp only [LineFamily.lineOf, Prod.mk.injEq]
  constructor
  · rintro ⟨i, hi, rfl, rfl⟩; exact ⟨⟨hr, hi⟩, rfl⟩
  · rintro ⟨⟨_, hc⟩, rfl⟩; exact ⟨c, hc, rfl, rfl⟩

theorem lineSize_column {R c : Nat} (hc : c < 32) : lineSize R .column c = R := by
  refine lineSize_eq_of_places (fun r => (r, c)) (fun i j h => by simpa using h) fun r c' => ?_
  simp only [LineFamily.lineOf, Prod.mk.injEq]
  constructor
  · rintro ⟨i, hi, rfl, rfl⟩; exact ⟨⟨hi, hc⟩, rfl⟩
  · rintro ⟨⟨hr, _⟩, rfl⟩; exact ⟨r, hr, rfl, rfl⟩

/-- How many bits diagonal line `d` has in a block of `R` rows (40 R102). -/
def diagSize (R d : Nat) : Nat := min (min d 31) (min (R - 1) (R + 30 - d)) + 1

/-- A diagonal line `d` with one bit, at column `col r`, in each row `r` that it meets: the rows from `d - 31` to `d`. -/
theorem lineSize_diagonal {R d : Nat} {f : LineFamily} (hR : 1 ≤ R) (hd : d < R + 31) (col : Nat → Nat)
    (hcol : ∀ r c, c < 32 ∧ f.lineOf r c = d ↔ (r ≤ d ∧ d ≤ r + 31) ∧ c = col r) : lineSize R f d = diagSize R d := by
  refine lineSize_eq_of_places (fun i => (d - 31 + i, col (d - 31 + i))) (fun i j h => ?_) fun r c => ?_
  · have hrow := (Prod.mk.inj h).1
    omega
  · rw [and_assoc, hcol]
    simp only [Prod.mk.injEq, diagSize]
    constructor
    · rintro ⟨i, hi, rfl, rfl⟩; omega
    · rintro ⟨hr, hline, rfl⟩
      exact ⟨r - (d - 31), by omega, by omega, by rw [show d - 31 + (r - (d - 31)) = r by omega]⟩

theorem lineSize_slash {R d : Nat} (hR : 1 ≤ R) (hd : d < R + 31) : lineSize R .slash d = diagSize R d :=
  lineSize_diagonal hR hd (fun r => d - r) fun r c => by simp only [LineFamily.lineOf]; omega

theorem lineSize_backslash {R d : Nat} (hR : 1 ≤ R) (hd : d < R + 31) : lineSize R .backslash d = diagSize R d :=
  lineSize_diagonal hR hd (fun r => r + 31 - d) fun r c => by simp only [LineFamily.lineOf]; omega

/-- Settles O38: the sizes of the four families, and the corner bits by arithmetic. -/
theorem lineSizesAreThoseOfTheMatrix : Obligations.LineSizesAreThoseOfTheMatrix := by
  intro B hB R
  have hR : 1 ≤ R := by simp only [R]; omega
  refine ⟨fun r hr => lineSize_row hr, fun c hc => lineSize_column hc,
    fun d hd => ⟨lineSize_slash hR hd, lineSize_backslash hR hd⟩, fun r hr c hc => ?_⟩
  simp only [LineFamily.lineOf]
  omega

end Sys2Proof.Machine
end

section
/-! SUPPORT. The fingerprint as a packing of its line parities (40 R86, R87, R90): it is linear (40 R100), and one flipped bit
adds to it one bit in each family (40 R101). -/

namespace Sys2Proof.Machine

/-! ## The fingerprint as a packing of its line parities (40 R86, R87, R90) -/

/-- The packing of the row lines: line `d` at word `d / 32`, bit `d mod 32` by weight (40 R86). -/
def packRows (B : Nat) (line : Nat → Bool) : List Word := (List.range B).map fun i => ofBits fun n => line (32 * i + n)

/-- The fingerprint whose line parities are `line`. -/
def Fingerprint.ofLines (B : Nat) (line : LineFamily → Nat → Bool) : Fingerprint :=
  { h := packRows B (line .row), v := ofBitsMsb (line .column), sd := packLines B (line .slash),
    bd := packLines B (line .backslash) }

theorem ofBits_congr {f g : Nat → Bool} (h : ∀ n < 32, f n = g n) : ofBits f = ofBits g :=
  word_ext fun n hn => by rw [getLsbD_ofBits, getLsbD_ofBits, h n hn]

theorem ofBits_xor (f g : Nat → Bool) : ofBits (fun n => xor (f n) (g n)) = ofBits f ^^^ ofBits g :=
  word_ext fun n _ => by simp only [BitVec.getLsbD_xor, getLsbD_ofBits, Bool.and_xor_distrib_left]

theorem hPar_eq_packRows {B : Nat} {D : List Word} (hD : D.length = 32 * B) : hPar B D = packRows B (lineParity D .row) :=
  List.map_congr_left fun i hi => ofBits_congr fun n hn => by
    rw [List.mem_range] at hi
    exact parity32_rowWord D (by omega)

theorem vPar_eq_ofBitsMsb (D : List Word) : vPar D = ofBitsMsb (lineParity D .column) :=
  word_ext fun n hn => by
    rw [getLsbD_ofBitsMsb, decide_eq_true hn, Bool.true_and, ← getLsbD_vPar_eq_lineParity D (by omega),
      show 31 - (31 - n) = n by omega]

theorem freshFp_eq_ofLines {B : Nat} {D : List Word} (hD : D.length = 32 * B) :
    freshFp B D = Fingerprint.ofLines B (lineParity D) := by
  rw [freshFp, hPar_eq_packRows hD, vPar_eq_ofBitsMsb]; rfl

/-- Settles O35: the packings read at their bits, and rows and columns as lines. -/
theorem fingerprintBitsAreLineParities : Obligations.FingerprintBitsAreLineParities := by
  intro B D hB hD
  have hdiag {f : LineFamily} (hf : f.lineCount B = 32 * B + 31) : ∀ i ≤ B, ∀ k < 32,
      msb ((diagPar B D f).getD i 0#32) k = if 32 * i + k ≤ 32 * B + 30 then lineParity D f (32 * i + k) else false :=
    fun i hi k hk => by
      rw [diagPar_getD D f hi, msb_ofBitsMsb _ hk, hf]
      split
      · next h => rw [decide_eq_true (by omega), Bool.true_and]
      · next h => rw [decide_eq_false (by omega), Bool.false_and]
  have hsized := freshFp_sized B D
  refine ⟨⟨hsized.h, fun i hi n hn => ⟨?_, parity32_rowWord D (by omega)⟩⟩, fun n _ => hD ▸ getLsbD_vPar D n,
    fun c hc => getLsbD_vPar_eq_lineParity D hc, ⟨hsized.sd, hdiag rfl⟩, hsized.bd, hdiag rfl⟩
  rw [hPar_getD D hi, getLsbD_ofBits, decide_eq_true hn, Bool.true_and]

/-! ## Linearity (40 R100) -/

theorem packRows_xor (B : Nat) (l l' : Nat → Bool) :
    packRows B (fun d => xor (l d) (l' d)) = List.zipWith (· ^^^ ·) (packRows B l) (packRows B l') := by
  simp only [packRows, List.zipWith_map, List.zipWith_self, ofBits_xor]

theorem packLines_xor (B : Nat) (l l' : Nat → Bool) :
    packLines B (fun d => xor (l d) (l' d)) = List.zipWith (· ^^^ ·) (packLines B l) (packLines B l') := by
  simp only [packLines, ofBitsMsb, List.zipWith_map, List.zipWith_self, Bool.and_xor_distrib_left, ofBits_xor]

theorem Fingerprint.ofLines_xor (B : Nat) (l l' : LineFamily → Nat → Bool) :
    ofLines B (fun f d => Bool.xor (l f d) (l' f d)) = (ofLines B l).xor (ofLines B l') := by
  simp only [ofLines, Fingerprint.xor, packRows_xor, packLines_xor, ofBitsMsb, ofBits_xor]

theorem rowWord_zipWith_xor {A X : List Word} (h : A.length = X.length) (r : Nat) :
    rowWord (List.zipWith (· ^^^ ·) A X) r = rowWord A r ^^^ rowWord X r := by
  simp only [rowWord, List.getD_eq_getElem?_getD]
  by_cases hr : r < A.length
  · simp [hr, h ▸ hr]
  · simp [hr, h ▸ hr]

theorem lineParity_zipWith_xor {A X : List Word} (h : A.length = X.length) (f : LineFamily) (d : Nat) :
    lineParity (List.zipWith (· ^^^ ·) A X) f d = xor (lineParity A f d) (lineParity X f d) := by
  simp only [lineParity, List.length_zipWith, ← h, Nat.min_self, ← xorBelow_xor, matrixBit, rowWord_zipWith_xor h,
    BitVec.getLsbD_xor, Bool.and_xor_distrib_left]

/-- Settles O36: every line's parity is linear, and so is the packing. -/
theorem fingerprintIsLinear : Obligations.FingerprintIsLinear := by
  intro B A X hA hX
  have hlines : lineParity (List.zipWith (· ^^^ ·) A X) = fun f d => xor (lineParity A f d) (lineParity X f d) := by
    funext f d
    exact lineParity_zipWith_xor (hA.trans hX.symm) f d
  rw [freshFp_eq_ofLines (by simp [hA, hX]), hlines, Fingerprint.ofLines_xor, freshFp_eq_ofLines hA, freshFp_eq_ofLines hX]

/-! ## One flipped bit (40 R101) -/

theorem packRows_single (B d : Nat) : packRows B (fun e => d == e) = oneWord B (d / 32) (oneBit (d % 32)) := by
  refine List.map_congr_left fun i _ => word_ext fun n hn => ?_
  rw [getLsbD_ofBits]
  split
  · rw [oneBit, getLsbD_one_shiftLeft (by omega), Bool.eq_iff_iff]
    simp only [Bool.and_eq_true, decide_eq_true_eq, beq_iff_eq]
    omega
  · simp only [BitVec.getLsbD_zero, Bool.and_eq_false_iff, decide_eq_false_iff_not, beq_eq_false_iff_ne]
    omega

theorem packLines_single {B d : Nat} (hd : d < 32 * B + 31) :
    packLines B (fun e => d == e) = oneWord (B + 1) (d / 32) (oneBit (31 - d % 32)) := by
  refine List.map_congr_left fun i _ => word_ext fun n hn => ?_
  rw [getLsbD_ofBitsMsb]
  split
  · rw [oneBit, getLsbD_one_shiftLeft (by omega), Bool.eq_iff_iff]
    simp only [Bool.and_eq_true, decide_eq_true_eq, beq_iff_eq]
    omega
  · simp only [BitVec.getLsbD_zero, Bool.and_eq_false_iff, decide_eq_false_iff_not, beq_eq_false_iff_ne]
    omega

theorem ofBitsMsb_single {c : Nat} (hc : c < 32) : ofBitsMsb (fun e => c == e) = oneBit (31 - c) := by
  refine word_ext fun n hn => ?_
  rw [getLsbD_ofBitsMsb, oneBit, getLsbD_one_shiftLeft (by omega), Bool.eq_iff_iff]
  simp only [Bool.and_eq_true, decide_eq_true_eq, beq_iff_eq]
  omega

/-- The fingerprint in which each family's one line of the bit `(r, c)` is set. -/
theorem Fingerprint.ofLines_single {B r c : Nat} (hr : r < 32 * B) (hc : c < 32) :
    ofLines B (fun f d => f.lineOf r c == d) = singleBitSignature B r c := by
  simp only [ofLines, singleBitSignature, LineFamily.lineOf, packRows_single, ofBitsMsb_single hc,
    packLines_single (show r + c < 32 * B + 31 by omega), packLines_single (show r + 31 - c < 32 * B + 31 by omega)]

/-- Settles O37: a flip adds its bit to each line it lies on, and the packing is linear. -/
theorem oneFlipChangesOneBitPerFamily : Obligations.OneFlipChangesOneBitPerFamily := by
  intro B D r c hD hr hc
  have hlines : lineParity (flipPair D (r, c)) = fun f d => xor (lineParity D f d) (f.lineOf r c == d) := by
    funext f d
    exact lineParity_flipPair D (hD ▸ hr) hc f d
  rw [freshFp_eq_ofLines ((length_flipPair D _).trans hD), hlines, Fingerprint.ofLines_xor, freshFp_eq_ofLines hD,
    Fingerprint.ofLines_single hr hc]

end Sys2Proof.Machine
end

section
/-! SUPPORT. The source's procedures (40 R91 to R94) and why they give the line fingerprint (40 R95): the nibble table gives
a row's parity, and the diagonal procedures finish one line with each row. -/

namespace Sys2Proof.Machine

/-! ## Row parities by nibbles (40 R91) -/

theorem xorBelow_mul (n m : Nat) (f : Nat → Bool) :
    xorBelow (n * m) f = xorBelow n fun i => xorBelow m fun j => f (m * i + j) := by
  induction n with
  | zero => rw [Nat.zero_mul]; rfl
  | succ n ih => rw [Nat.succ_mul, xorBelow_add, ih, xorBelow_succ, Nat.mul_comm n m]

theorem par4_eq_xorBelow : ∀ x : BitVec 4, par4 x = xorBelow 4 fun n => x.getLsbD n := by decide

theorem nibbleParity_eq_parity32 (w : Word) : nibbleParity w = parity32 w := by
  refine Eq.trans (xorBelow_congr fun g _ => ?_) (xorBelow_mul 8 4 fun n => w.getLsbD n).symm
  rw [par4_eq_xorBelow]
  exact xorBelow_congr fun j hj => by simp [hj]

/-- Settles O33: the table is checked on its 16 entries, and a word's parity is the XOR of its groups' parities. -/
theorem nibbleTableGivesRowParity : Obligations.NibbleTableGivesRowParity :=
  ⟨by decide, nibbleParity_eq_parity32⟩

theorem hProc_eq_hPar (B : Nat) (D : List Word) : hProc B D = hPar B D := by
  simp only [hProc, hPar, nibbleParity_eq_parity32]

/-! ## One more row of DATA -/

theorem runRows_append (row : DiagAcc → Word → Nat → DiagAcc) (st : DiagAcc) (r : Nat) (ws : List Word) (w : Word) :
    runRows row st r (ws ++ [w]) = row (runRows row st r ws) w (r + ws.length) := by
  induction ws generalizing st r with
  | nil => rfl
  | cons v ws ih =>
    rw [List.cons_append, runRows, ih, runRows, List.length_cons, show r + 1 + ws.length = r + (ws.length + 1) by omega]

/-- The last row adds to line `d` the one bit of it on that line. -/
theorem lineParity_append (E : List Word) (w : Word) (f : LineFamily) (d : Nat) :
    lineParity (E ++ [w]) f d =
      xor (lineParity E f d) (xorBelow 32 fun c => f.lineOf E.length c == d && w.getLsbD (31 - c)) := by
  have hinit {r : Nat} (hr : r < E.length) : rowWord (E ++ [w]) r = rowWord E r := by
    simp [rowWord, List.getD_eq_getElem?_getD, List.getElem?_append, hr]
  have hlast : rowWord (E ++ [w]) E.length = w := by simp [rowWord, List.getD_eq_getElem?_getD]
  rw [lineParity, List.length_append, List.length_singleton, xorBelow_succ]
  congr 1
  · exact xorBelow_congr fun r hr => by simp only [matrixBit, hinit hr]
  · simp only [matrixBit, hlast]

/-- A line with one bit in the last row, at column `k`, in the rows from `d - 31` to `d`. -/
theorem lineParity_append_place (E : List Word) (w : Word) {f : LineFamily} {d k : Nat}
    (hk : ∀ c, c < 32 ∧ f.lineOf E.length c = d ↔ (E.length ≤ d ∧ d < E.length + 32) ∧ c = k) :
    lineParity (E ++ [w]) f d =
      xor (lineParity E f d) (decide (E.length ≤ d ∧ d < E.length + 32) && w.getLsbD (31 - k)) := by
  rw [lineParity_append]
  congr 1
  by_cases h : E.length ≤ d ∧ d < E.length + 32
  · obtain ⟨hk32, hline⟩ := (hk k).2 ⟨h, rfl⟩
    rw [xorBelow_single _ hk32 fun c hc hck => by simp [show f.lineOf E.length c ≠ d from fun e => hck ((hk c).1 ⟨hc, e⟩).2]]
    simp [hline, h]
  · rw [xorBelow_eq_false fun c hc => by simp [show f.lineOf E.length c ≠ d from fun e => h ((hk c).1 ⟨hc, e⟩).1]]
    simp [h]

/-! ## A row step of a diagonal procedure (40 R93, R94) -/

/-- What the slash and the back-slash procedure have in common: row `r` meets the lines `r` to `r + 31` of the family, line
`r + j` at the place of its word that `bit` reads at `j`; the step adds the row to the accumulator, stores place 0, which
finishes line `r`, and moves every place down by one. -/
structure DiagStep (row : DiagAcc → Word → Nat → DiagAcc) (bit : Word → Nat → Bool) (f : LineFamily) : Prop where
  zero : ∀ j, bit 0#32 j = false
  acc : ∀ st w r, ∀ j < 32,
    bit (row st w r).acc j = (decide (j + 1 < 32) && xor (bit st.acc (j + 1)) (bit w (j + 1)))
  out : ∀ st w r, (row st w r).out =
    st.out.modify (r / 32) fun x => setmsb x (r % 32) (xor (bit st.acc 0) (bit w 0))
  line : ∀ E w d, lineParity (E ++ [w]) f d =
    xor (lineParity E f d) (decide (E.length ≤ d ∧ d < E.length + 32) && bit w (d - E.length))

theorem diagStep_slash : DiagStep slashRow msb .slash where
  zero j := by simp [msb]
  acc st w r j hj := by
    simp only [slashRow, msb, BitVec.getLsbD_shiftLeft, BitVec.getLsbD_xor]
    by_cases h : j + 1 < 32
    · simp [h, show 31 - j < 32 by omega, show ¬ 31 - j < 1 by omega, show 31 - j - 1 = 31 - (j + 1) by omega]
    · simp [h, show 31 - j < 1 by omega]
  out st w r := by simp only [slashRow, msb, BitVec.getLsbD_xor]
  line E w d := by
    exact lineParity_append_place (k := d - E.length) E w fun c => by simp only [LineFamily.lineOf]; omega

theorem diagStep_backslash : DiagStep backslashRow BitVec.getLsbD .backslash where
  zero j := by simp
  acc st w r j hj := by
    simp only [backslashRow, BitVec.getLsbD_ushiftRight, BitVec.getLsbD_xor, Nat.add_comm 1 j]
    by_cases h : j + 1 < 32
    · simp [h]
    · simp [h, BitVec.getLsbD_of_ge _ _ (Nat.le_of_not_lt h)]
  out st w r := by simp only [backslashRow, BitVec.getLsbD_xor]
  line E w d := by
    rw [lineParity_append_place (k := E.length + 31 - d) E w fun c => by simp only [LineFamily.lineOf]; omega]
    congr 1
    by_cases h : E.length ≤ d ∧ d < E.length + 32
    · rw [show 31 - (E.length + 31 - d) = d - E.length by omega]
    · simp [h]

/-! ## The accumulator and the output after the rows of DATA -/

/-- The first `k` lines of a diagonal family packed as in 40 R90, the other places 0. -/
def packBelow (B k : Nat) (line : Nat → Bool) : List Word :=
  (List.range (B + 1)).map fun i => ofBitsMsb fun n => decide (32 * i + n < k) && line (32 * i + n)

theorem packBelow_zero (B : Nat) (line : Nat → Bool) : packBelow B 0 line = List.replicate (B + 1) 0#32 := by
  refine List.eq_replicate_iff.2 ⟨by simp [packBelow], fun w hw => ?_⟩
  obtain ⟨i, _, rfl⟩ := List.mem_map.1 hw
  exact word_ext fun n _ => by simp

/-- Storing line `k` puts it behind the `k` lines before it. -/
theorem packBelow_succ {B k : Nat} {line line' : Nat → Bool} (h : ∀ d < k, line' d = line d) :
    (packBelow B k line).modify (k / 32) (fun x => setmsb x (k % 32) (line' k)) = packBelow B (k + 1) line' := by
  refine List.ext_getElem (by simp [packBelow]) fun i _ _ => word_ext fun n hn => ?_
  simp only [packBelow, List.getElem_modify, List.getElem_map, List.getElem_range]
  by_cases hk : 32 * i + (31 - n) = k
  · rw [if_pos (by omega), getLsbD_setmsb, if_pos (by omega), getLsbD_ofBitsMsb, hk, decide_eq_true (Nat.lt_succ_self k),
      Bool.true_and]
  · have hsame : (decide (32 * i + (31 - n) < k) && line (32 * i + (31 - n))) =
        (decide (32 * i + (31 - n) < k + 1) && line' (32 * i + (31 - n))) := by
      by_cases hlt : 32 * i + (31 - n) < k
      · rw [h _ hlt, decide_eq_true hlt, decide_eq_true (by omega)]
      · rw [decide_eq_false hlt, decide_eq_false (by omega)]; rfl
    split
    · rw [getLsbD_setmsb, if_neg (by omega), decide_eq_true hn, Bool.true_and, getLsbD_ofBitsMsb, getLsbD_ofBitsMsb, hsame]
    · rw [getLsbD_ofBitsMsb, getLsbD_ofBitsMsb, hsame]

/-- The last word holds the 31 lines from line `32 * B` on; its last place has no line (40 R103). -/
theorem packBelow_set_last {B : Nat} {line : Nat → Bool} {w : Word}
    (hw : ∀ k < 32, msb w k = (decide (k < 31) && line (32 * B + k))) :
    (packBelow B (32 * B) line).set B w = packLines B line := by
  refine List.ext_getElem (by simp [packBelow, packLines]) fun i _ hi => word_ext fun n hn => ?_
  simp only [packLines, List.length_map, List.length_range] at hi
  simp only [packBelow, packLines, List.getElem_set, List.getElem_map, List.getElem_range, getLsbD_ofBitsMsb]
  split
  · next hB =>
    have hbit := hw (31 - n) (by omega)
    rw [msb, show 31 - (31 - n) = n by omega] at hbit
    rw [hbit, ← hB, decide_eq_true hn, Bool.true_and]
    exact congrArg (· && _) (decide_eq_decide.2 (by omega))
  · rw [getLsbD_ofBitsMsb, decide_eq_true (by omega : 32 * i + (31 - n) < 32 * B),
      decide_eq_true (by omega : 32 * i + (31 - n) < 32 * B + 31)]

section
variable {row : DiagAcc → Word → Nat → DiagAcc} {bit : Word → Nat → Bool} {f : LineFamily}

theorem DiagStep.lineParity_past (h : DiagStep row bit f) (D : List Word) {d : Nat} (hd : D.length + 31 ≤ d) :
    lineParity D f d = false := by
  induction D using List.reverseRecOn with
  | nil => rfl
  | append_singleton E w ih =>
    rw [List.length_append, List.length_singleton] at hd
    rw [h.line, ih (by omega), decide_eq_false (by omega)]; rfl

/-- After the rows of `D`, place `j` of the accumulator holds what these rows add to line `D.length + j`. -/
theorem DiagStep.bit_acc (h : DiagStep row bit f) (B : Nat) (D : List Word) {j : Nat} (hj : j < 32) :
    bit (runRows row (DiagAcc.start B) 0 D).acc j = lineParity D f (D.length + j) := by
  induction D using List.reverseRecOn generalizing j with
  | nil => exact h.zero j
  | append_singleton E w ih =>
    rw [runRows_append, h.acc _ _ _ j hj, h.line, List.length_append, List.length_singleton]
    by_cases hj1 : j + 1 < 32
    · rw [ih hj1, decide_eq_true hj1, decide_eq_true (by omega), Bool.true_and, Bool.true_and,
        show E.length + 1 + j = E.length + (j + 1) by omega, Nat.add_sub_cancel_left]
    · rw [h.lineParity_past E (by omega), decide_eq_false hj1, decide_eq_false (by omega)]; rfl

/-- After the rows of `D`, the output holds the lines that these rows have finished. -/
theorem DiagStep.out_eq (h : DiagStep row bit f) (B : Nat) (D : List Word) :
    (runRows row (DiagAcc.start B) 0 D).out = packBelow B D.length (lineParity D f) := by
  induction D using List.reverseRecOn with
  | nil => exact (packBelow_zero B _).symm
  | append_singleton E w ih =>
    have hlast : xor (bit (runRows row (DiagAcc.start B) 0 E).acc 0) (bit w 0) = lineParity (E ++ [w]) f E.length := by
      rw [h.bit_acc B E (by omega), h.line]; simp
    have hbefore : ∀ d < E.length, lineParity (E ++ [w]) f d = lineParity E f d := fun d hd => by
      rw [h.line]; simp [show ¬ E.length ≤ d by omega]
    rw [runRows_append, h.out, ih, hlast, Nat.zero_add, packBelow_succ hbefore, List.length_append, List.length_singleton]

/-- With the accumulator's unfinished lines in MSB-first order as the last word, the output is the packed family. -/
theorem DiagStep.set_last (h : DiagStep row bit f) {B : Nat} {D : List Word} (hD : D.length = 32 * B) {w : Word}
    (hw : ∀ k < 32, msb w k = bit (runRows row (DiagAcc.start B) 0 D).acc k) :
    (runRows row (DiagAcc.start B) 0 D).out.set B w = packLines B (lineParity D f) := by
  rw [h.out_eq, hD]
  refine packBelow_set_last fun k hk => ?_
  rw [hw k hk, h.bit_acc B D hk, hD]
  by_cases hk1 : k < 31
  · rw [decide_eq_true hk1, Bool.true_and]
  · rw [h.lineParity_past D (by omega), decide_eq_false hk1, Bool.false_and]

end

theorem slashProc_eq_sdPar {B : Nat} {D : List Word} (hD : D.length = 32 * B) : slashProc B D = sdPar B D :=
  diagStep_slash.set_last hD fun _ _ => rfl

theorem backslashProc_eq_bdPar {B : Nat} {D : List Word} (hD : D.length = 32 * B) : backslashProc B D = bdPar B D :=
  diagStep_backslash.set_last hD fun k hk => by
    rw [msb, getLsbD_rev32, decide_eq_true (by omega), Bool.true_and, show 31 - (31 - k) = k by omega]

/-- Settles O32: each row step stores the line it finishes, and the accumulator holds the unfinished ones. -/
theorem proceduresGiveTheLineFingerprint : Obligations.ProceduresGiveTheLineFingerprint := by
  intro B D _ hD
  rw [procFp, freshFp, hProc_eq_hPar, slashProc_eq_sdPar hD, backslashProc_eq_bdPar hD]

end Sys2Proof.Machine
end

section
/-! SUPPORT. COMPUTE (40 R96 to R99), and the stored words that CHECK cannot accept: a set unused slot (40 R103) and a
fingerprint from which DATA differs in an odd number of bits. -/

namespace Sys2Proof.Machine

/-! ## COMPUTE (40 R96 to R99) -/

theorem execCompute_fault {s : State} {f : Fault} (h : s.readData = .error f) : exec .compute s = .fault f := by
  rw [exec, execCompute, h]; rfl

/-- Settles O40: COMPUTE's one write is the fingerprint's words, and its read reports the lowest unwritten DATA word. -/
theorem computeExposesTheFingerprint : Obligations.ComputeExposesTheFingerprint := fun _ =>
  ⟨fun hD => ⟨_, execCompute_eq_next.2 ⟨hD, rfl⟩, rfl, rfl, fun _ hk => readWord_writeFresh hk⟩,
    fun _ hr hw hu => execCompute_fault (readData_error hr hw hu)⟩

theorem sameOutside_writeFresh (s : State) :
    sameOutside s.mem (s.writeFresh s.fpOfData).mem (fpfOff 0) (fpfEnd s.cfg) := fun a ha => by
  by_contra hne
  have hin := readByte_writeFresh_ne hne
  omega

/-- Settles O41: COMPUTE's one write is that of the fresh window, and the end of its completion clears BUSY and PEND. -/
theorem computeWritesOnlyTheFreshWindow : Obligations.ComputeWritesOnlyTheFreshWindow := by
  intro s t
  refine ⟨fun h => ?_, fun hb hp turn h => ?_⟩
  · obtain ⟨_, rfl⟩ := execCompute_eq_next.1 h
    exact ⟨sameOutside_writeFresh s, rfl⟩
  · rw [step_completion turn hb hp] at h
    cases hu : exec .compute s.dropTurn with
    | next u =>
      rw [hu] at h
      cases h
      obtain ⟨_, rfl⟩ := execCompute_eq_next.1 hu
      exact ⟨sameOutside_writeFresh s.dropTurn, rfl⟩
    | fault f => rw [hu] at h; cases h
    | refused r => rw [hu] at h; cases h

/-- A second write of the same words changes nothing in a canonical listing. -/
theorem writeWords_writeWords {m : Memory} (h : m.wf) (off : Nat) (ws : List Word) :
    (m.writeWords off ws).writeWords off ws = m.writeWords off ws := by
  have hw := wf_writeWords off ws h
  refine memory_ext (wf_writeWords off ws hw) hw fun a => ?_
  rw [readByte_writeWords (m.writeWords off ws), readByte_writeWords m]
  split <;> rfl

/-- The fresh window lies past DATA, so that COMPUTE does not change what it reads (40 R99). -/
theorem data_writeFresh (s : State) :
    ((s.writeFresh s.fpOfData).DataWritten ↔ s.DataWritten) ∧ (s.writeFresh s.fpOfData).fpOfData = s.fpOfData := by
  have hR := R_le s.cfg
  obtain ⟨hD, _, hfp⟩ := data_congr (s := s) (t := s.writeFresh s.fpOfData) rfl fun r hr =>
    readWord_writeWords_other _ _ _ (.inl (by simp only [dataOff, fpfOff]; omega))
  exact ⟨hD, hfp⟩

/-- Settles O42: the second COMPUTE reads the same DATA and writes the same words again. -/
theorem computeTwiceIsComputeOnce : Obligations.ComputeTwiceIsComputeOnce := by
  intro s t hs h
  obtain ⟨hD, rfl⟩ := execCompute_eq_next.1 h
  obtain ⟨hD', hfp⟩ := data_writeFresh s
  refine execCompute_eq_next.2 ⟨hD'.2 hD, ?_⟩
  rw [hfp, State.writeFresh, State.writeFresh, writeWords_writeWords hs]

/-! ## What CHECK detects (40 R103, 41 R105) -/

theorem execCheck_invalid {s : State} (hD : s.DataWritten) (hS : s.StoredWritten) (h : s.storedOf ≠ s.fpOfData) :
    exec .check s = .next { s with valid := false } :=
  execCheck_eq_next.2 ⟨hD, hS, by rw [decide_eq_false h]; rfl⟩

/-- The unused slots of the fingerprint of DATA, as words of the window (10 R30, 40 R103). -/
theorem fpOfData_unusedSlots (s : State) :
    (s.fpOfData.words.getD (2 * s.cfg.B + 1) 0#32).getLsbD 0 = false ∧
      (s.fpOfData.words.getD (3 * s.cfg.B + 2) 0#32).getLsbD 0 = false := by
  have hslash := s.freshWhole_writeFresh.slashSlot
  have hback := s.freshWhole_writeFresh.backslashSlot
  rw [State.writeFresh_cfg, freshFpWord_writeFresh (by rw [fpWords_eq]; omega)] at hslash hback
  exact ⟨hslash, hback⟩

/-- Settles O39: the last place of the last word has no line, so a stored 1 there is a mismatch. -/
theorem unusedSlotIsZeroAndFailsCheck : Obligations.UnusedSlotIsZeroAndFailsCheck := by
  refine ⟨fun B D => ⟨diagPar_unusedSlot B D (.inl rfl), diagPar_unusedSlot B D (.inr rfl)⟩, fun s hD hS hset => ?_⟩
  refine execCheck_invalid hD hS fun heq => ?_
  obtain ⟨hslash, hback⟩ := fpOfData_unusedSlots s
  rw [← heq, storedOf_words_getD s (by rw [fpWords_eq]; omega)] at hslash hback
  rcases hset with h | h
  · rw [hslash] at h; cases h
  · rw [hback] at h; cases h

theorem getLsbD_hPar {B r : Nat} (D : List Word) (hr : r < 32 * B) :
    ((hPar B D).getD (r / 32) 0#32).getLsbD (r % 32) = parity32 (rowWord D r) := by
  rw [hPar_getD D (by omega), getLsbD_ofBits, decide_eq_true (by omega), Bool.true_and,
    show 32 * (r / 32) + r % 32 = r by omega]

/-- Blocks with the same fingerprint of DATA have the same row parities (40 R86). -/
theorem parity32_dataRow_congr {s t : State} (hc : t.cfg = s.cfg) (h : s.fpOfData = t.fpOfData) {r : Nat}
    (hr : r < s.cfg.R) : parity32 (s.dataRow r) = parity32 (t.dataRow r) := by
  have hrow (u : State) (hu : r < u.cfg.R) :
      ((u.fpOfData.h).getD (r / 32) 0#32).getLsbD (r % 32) = parity32 (u.dataRow r) := by
    rw [← rowWord_dataOf u hu]; exact getLsbD_hPar u.dataOf hu
  rw [← hrow s hr, h, hrow t (hc ▸ hr)]

/-- Settles O47: with the same fingerprint, every row would differ in an even number of bits. -/
theorem everyOddNumberOfDataFlipsIsDetected : Obligations.EveryOddNumberOfDataFlipsIsDetected := by
  rintro s t ⟨_, _, hs⟩ hc hD hS hstored hodd
  refine execCheck_invalid hD hS fun ht => ?_
  have hfp : s.fpOfData = t.fpOfData := by rw [← hs, ← hstored, ht]
  have heven : xorBelow s.cfg.R (fun r => parity32 (s.dataRow r ^^^ t.dataRow r)) = false :=
    xorBelow_eq_false fun r hr => by rw [parity32_xor, parity32_dataRow_congr hc hfp hr, Bool.xor_self]
  rw [heven] at hodd
  cases hodd

end Sys2Proof.Machine
end

section
/-! SUPPORT. CHECK (41 R105 to R107): its verdict word by word, what it faults on, that it accepts a stamped block (41 R110),
and that it rejects a consistent block with one data bit or one stored bit flipped (41 R111, R112). -/

namespace Sys2Proof.Machine

/-! ## The verdict (41 R105 to R107) -/

/-- The stored fingerprint is the fresh one when each of the window's words is (41 R106). -/
theorem storedOf_eq_fpOfData_iff (s : State) :
    s.storedOf = s.fpOfData ↔ ∀ k < s.cfg.fpWords, s.storedFpWord k = s.fpOfData.words.getD k 0#32 := by
  constructor
  · intro h k hk
    rw [← storedOf_words_getD s hk, h]
  · intro h
    refine Fingerprint.ext_words (storedOf_sized s) (fpOfData_sized s) fun k hk => ?_
    rw [storedOf_words_getD s hk, h k hk]

theorem execCheck_valid {s : State} (h : s.Consistent) : exec .check s = .next { s with valid := true } := by
  obtain ⟨hD, hS, hfp⟩ := h
  exact execCheck_eq_next.2 ⟨hD, hS, by rw [decide_eq_true hfp]; rfl⟩

/-- CHECK does not read VALID, which is all that it writes (41 R107). -/
theorem execCheck_repeat {s t : State} (h : exec .check s = .next t) : exec .check t = .next t := by
  obtain ⟨hD, hS, rfl⟩ := execCheck_eq_next.1 h
  exact execCheck_eq_next.2 ⟨hD, hS, rfl⟩

theorem execCheck_fault {s : State} {f : Fault} (h : s.readBlock = .error f) : exec .check s = .fault f := by
  rw [exec, execCheck, h]; rfl

/-- A block is read DATA first (60 R132). -/
theorem readBlock_error_data {s : State} {f : Fault} (h : s.readData = .error f) : s.readBlock = .error f := by
  rw [State.readBlock, h]

theorem readBlock_error_stored {s : State} {f : Fault} (hD : s.DataWritten) (h : s.readStored = .error f) :
    s.readBlock = .error f := by
  rw [State.readBlock, readData_eq_ok.2 ⟨hD, rfl⟩, h]

/-- Settles O43: the verdict is taken word by word, and the block's read reports its lowest unwritten word, DATA first. -/
theorem checkRecordsWhetherAllWordsAgree : Obligations.CheckRecordsWhetherAllWordsAgree := by
  refine fun s => ⟨fun hD hS => ?_, fun r hr hw hu => ?_, fun hD k hk hw hu => ?_⟩
  · have hcheck := execCheck_eq_next.2 ⟨hD, hS, rfl⟩
    refine ⟨_, hcheck, execCheck_repeat hcheck, ?_⟩
    rw [decide_eq_decide.2 (storedOf_eq_fpOfData_iff s)]
    rfl
  · exact execCheck_fault (readBlock_error_data (readData_error hr hw hu))
  · exact execCheck_fault (readBlock_error_stored hD (readStored_error hk hw hu))

/-! ## A stamped block (41 R110) -/

/-- The stored window lies past DATA, so that the copy of the fresh words does not change DATA. -/
theorem data_copyFresh (s : State) :
    (s.copyFresh.DataWritten ↔ s.DataWritten) ∧ s.copyFresh.fpOfData = s.fpOfData := by
  have hR := R_le s.cfg
  obtain ⟨hD, _, hfp⟩ := data_congr (s := s) (t := s.copyFresh) rfl fun r hr =>
    readWord_writeWords_other _ _ _ (.inl (by simp only [dataOff, fpsOff]; omega))
  exact ⟨hD, hfp⟩

theorem readWord_copyFresh (s : State) {k : Nat} (hk : k < s.cfg.fpWords) :
    s.copyFresh.mem.readWord (fpsOff k) = some (s.freshFpWord k) := by
  rw [State.copyFresh_mem, fpsOff_eq k, readWord_writeWords_same _ _ _ (by simpa using hk)]
  simp [List.getD_eq_getElem?_getD, hk]

/-- COMPUTE's result, copied, is the fingerprint of the block's DATA (10 R28). -/
theorem consistent_copyFresh_writeFresh {s : State} (hD : s.DataWritten) :
    (s.writeFresh s.fpOfData).copyFresh.Consistent := by
  obtain ⟨hDfresh, hfpFresh⟩ := data_writeFresh s
  obtain ⟨hDcopy, hfpCopy⟩ := data_copyFresh (s.writeFresh s.fpOfData)
  refine consistent_of_readWord_fpsOff (hDcopy.2 (hDfresh.2 hD)) fun k hk => ?_
  rw [State.copyFresh_cfg, State.writeFresh_cfg] at hk
  rw [readWord_copyFresh (s.writeFresh s.fpOfData) hk, freshFpWord_writeFresh hk, hfpCopy, hfpFresh]

/-- Settles O44: stamping leaves a consistent block. -/
theorem stampedBlockChecksValid : Obligations.StampedBlockChecksValid := fun _ hD =>
  ⟨_, execCompute_eq_next.2 ⟨hD, rfl⟩, execCheck_valid (consistent_copyFresh_writeFresh hD)⟩

/-! ## One flipped data bit (41 R111) -/

/-- Settles O45: REPAIR would locate the flipped bit, so the stored fingerprint is not that of the changed DATA. -/
theorem everySingleDataFlipIsDetected : Obligations.EverySingleDataFlipIsDetected := by
  intro s r n hs hr hn
  obtain ⟨hD, _, hS, _⟩ := block_flipDataBit hs.1 hr hn
  have hlocated := flipped_flipDataBit hs hr hn
  exact execCheck_invalid hD (hS.2 hs.2.1) (storedOf_ne_of_flipped (by rw [hlocated]; exact List.cons_ne_nil _ _))

/-! ## One flipped stored bit (41 R109, R112) -/

theorem xor_one_shiftLeft_ne (w : Word) {n : Nat} (hn : n < 32) : w ^^^ 1#32 <<< n ≠ w := fun h => by
  have hbit := congrArg (·.getLsbD n) h
  simp [getLsbD_one_shiftLeft hn] at hbit

/-- What a flip of bit `n` by weight of stored word `k` leaves of the block: DATA stays, and so do the write marks. -/
theorem block_flipStoredBit {s : State} {k : Nat} (n : Nat) (hS : s.StoredWritten) (hk : k < s.cfg.fpWords) :
    ((s.flipStoredBit k n).DataWritten ↔ s.DataWritten) ∧ (s.flipStoredBit k n).fpOfData = s.fpOfData ∧
      (s.flipStoredBit k n).StoredWritten ∧ (s.flipStoredBit k n).storedFpWord k = s.storedFpWord k ^^^ 1#32 <<< n := by
  have hother {off : Nat} (h : off + 4 ≤ fpsOff k ∨ fpsOff k + 4 ≤ off) :
      (s.flipStoredBit k n).mem.readWord off = s.mem.readWord off := readWord_flipBit_other _ n h
  have hsame : (s.flipStoredBit k n).mem.readWord (fpsOff k) = (s.mem.readWord (fpsOff k)).map (· ^^^ (1#32 <<< n)) :=
    readWord_flipBit_same _ _ _
  have hR := R_le s.cfg
  obtain ⟨hD, _, hfp⟩ := data_congr (s := s) (t := s.flipStoredBit k n) rfl fun r hr =>
    hother (.inl (by simp only [dataOff, fpsOff]; omega))
  refine ⟨hD, hfp, fun q hq => ?_, ?_⟩
  · by_cases h : q = k
    · rw [h, hsame, Option.isSome_map]; exact hS k hk
    · rw [hother (by simp only [fpsOff]; omega)]; exact hS q hq
  · obtain ⟨w, hw⟩ := Option.isSome_iff_exists.1 (hS k hk)
    rw [State.storedFpWord, State.storedFpWord, hsame, hw]; rfl

/-- Settles O46: the flipped word is no longer the fresh one, which the flip does not change. -/
theorem everySingleStoredFlipIsDetected : Obligations.EverySingleStoredFlipIsDetected := by
  rintro s k n ⟨hD, hS, hs⟩ hk hn
  obtain ⟨hD', hfp, hS', hword⟩ := block_flipStoredBit n hS hk
  refine execCheck_invalid (hD'.2 hD) hS' fun heq => xor_one_shiftLeft_ne (s.storedFpWord k) hn ?_
  calc s.storedFpWord k ^^^ 1#32 <<< n
    _ = (s.flipStoredBit k n).storedFpWord k := hword.symm
    _ = s.fpOfData.words.getD k 0#32 := by rw [(storedOf_eq_fpOfData_iff _).1 heq k hk, hfp]
    _ = s.storedFpWord k := ((storedOf_eq_fpOfData_iff s).1 hs k hk).symm

end Sys2Proof.Machine
end

section
/-! SUPPORT. REPAIR (42 R113 to R126): the DATA bits that a list of flips changes and that their order does not matter (42
R118), the located pairs as four line mismatches (42 R114 to R117), what REPAIR leaves, what it faults on, and that the channel
of diagnostic events affects nothing (42 R125). -/

namespace Sys2Proof.Machine

/-! ## Flips of a list of pairs (42 R117, R118) -/

theorem flipPair_comm (D : List Word) (p q : Nat × Nat) : flipPair (flipPair D p) q = flipPair (flipPair D q) p := by
  refine List.ext_getElem? fun r => ?_
  simp only [flipPair, List.getElem?_modify]
  cases D[r]? with
  | none => simp
  | some w =>
    have hxor (v : Word) : w ^^^ 1#32 <<< (31 - p.2) ^^^ v = w ^^^ v ^^^ 1#32 <<< (31 - p.2) := by
      rw [BitVec.xor_assoc, BitVec.xor_comm _ v, BitVec.xor_assoc]
    by_cases hp : p.1 = r <;> by_cases hq : q.1 = r <;> simp [hp, hq, hxor]

/-- Settles O50: any two flips commute. -/
theorem orderOfFlipsDoesNotMatter : Obligations.OrderOfFlipsDoesNotMatter := fun D _ _ h =>
  h.foldl_eq' (fun p _ q _ E => flipPair_comm E p q) D

/-- Flips of distinct pairs change exactly the bits of these pairs. -/
theorem matrixBit_applyFlips {D : List Word} {ps : List (Nat × Nat)} (hnodup : ps.Nodup)
    (hps : ∀ p ∈ ps, p.1 < D.length ∧ p.2 < 32) {r c : Nat} (hc : c < 32) :
    matrixBit (applyFlips D ps) r c = xor (matrixBit D r c) (decide ((r, c) ∈ ps)) := by
  induction ps generalizing D with
  | nil => simp [applyFlips]
  | cons p ps ih =>
    obtain ⟨hp, hnodup⟩ := List.nodup_cons.1 hnodup
    obtain ⟨hp1, hp2⟩ := hps p List.mem_cons_self
    have hrest : ∀ q ∈ ps, q.1 < (flipPair D p).length ∧ q.2 < 32 := fun q hq => by
      rw [length_flipPair]; exact hps q (List.mem_cons_of_mem p hq)
    have hpair : (decide (r = p.1) && decide (c = p.2)) = decide ((r, c) = p) := by simp [Prod.ext_iff]
    rw [applyFlips_cons, ih hnodup hrest, matrixBit_flipPair D hp1 hp2 hc, hpair, Bool.xor_assoc]
    congr 1
    by_cases h : (r, c) = p
    · simp [h, hp]
    · simp [h]

/-! ## The located pairs (42 R114 to R117) -/

theorem mem_flipped {s : State} {p : Nat × Nat} :
    p ∈ s.flipped ↔ (p.1 < s.cfg.R ∧ p.2 < 32) ∧ flipsPair s.storedOf s.fpOfData p.1 p.2 = true := mem_repairPairs

theorem nodup_flipped (s : State) : s.flipped.Nodup := (nodup_allPairs _).filter _

theorem length_allPairs (R : Nat) : (allPairs R).length = 32 * R := by
  simp [allPairs, List.length_flatMap, Nat.mul_comm]

theorem length_flipped_le (s : State) : s.flipped.length ≤ 32 * s.cfg.R :=
  (List.length_filter_le _ _).trans_eq (length_allPairs _)

/-- Against the fingerprint of DATA, a pair is flipped when the stored bits of its four lines differ from the lines' parities. -/
theorem flipsPair_freshFp_right {B : Nat} {D : List Word} (f : Fingerprint) {i j : Nat} (hi : i < 32 * B) (hj : j < 32) :
    flipsPair f (freshFp B D) i j =
      ((f.h.getD (i / 32) 0#32).getLsbD (i % 32) != parity32 (rowWord D i) &&
        (f.v.getLsbD (31 - j) != lineParity D .column j) &&
        ((msb (f.sd.getD ((i + j) / 32) 0#32) ((i + j) % 32) != lineParity D .slash (i + j)) &&
          (msb (f.bd.getD ((i + 31 - j) / 32) 0#32) ((i + 31 - j) % 32) != lineParity D .backslash (i + 31 - j)))) := by
  simp only [flipsPair, suspectRow, suspectColumn, lineMismatch, freshFp, sdPar, bdPar, getLsbD_hPar D hi,
    getLsbD_vPar_eq_lineParity D hj, msb_diagPar D (.inl rfl) (show i + j < 32 * B + 31 by omega),
    msb_diagPar D (.inr rfl) (show i + 31 - j < 32 * B + 31 by omega)]

/-- A family without a mismatch vetoes every pair (42 R122). -/
theorem flipped_eq_nil {s : State} (h : s.storedOf.h = s.fpOfData.h ∨ s.storedOf.v = s.fpOfData.v ∨
    s.storedOf.sd = s.fpOfData.sd ∨ s.storedOf.bd = s.fpOfData.bd) : s.flipped = [] := by
  refine List.filter_eq_nil_iff.2 fun p _ => ?_
  rcases h with h | h | h | h <;> simp [flipsPair, suspectRow, suspectColumn, lineMismatch, h]

/-! ## What REPAIR leaves (42 R113, R119, R124) -/

theorem repair_matrixBit {s t : State} (h : exec .repair s = .next t) {i j : Nat} (hi : i < s.cfg.R) (hj : j < 32) :
    matrixBit t.dataOf i j = xor (matrixBit s.dataOf i j) (flipsPair s.storedOf s.fpOfData i j) := by
  obtain ⟨_, _, _, hdata, _⟩ := repair_state h
  rw [hdata, matrixBit_applyFlips (nodup_flipped s) (fun p hp => by simpa using (mem_flipped.1 hp).1) hj]
  simp [mem_flipped, hi, hj]

/-- Settles O48: a bit changes when its pair is located, and the located pairs are read off the four lines. -/
theorem repairFlipsExactlyTheLocatedBits : Obligations.RepairFlipsExactlyTheLocatedBits := by
  intro s hD hS
  obtain ⟨t, ht⟩ := exec_answers (i := .repair) hD fun _ => hS
  obtain ⟨_, hDt, _⟩ := repair_state ht
  refine ⟨t, ht, hDt, fun i hi j hj => ?_⟩
  rw [repair_matrixBit ht hi hj, State.fpOfData, flipsPair_freshFp_right s.storedOf hi hj, rowWord_dataOf s hi,
    ← Bool.and_assoc]
  rfl

/-- Settles O49: the bits that differ are those of the located pairs, too few for the count to wrap. -/
theorem flipsCountsTheChangedBits : Obligations.FlipsCountsTheChangedBits := by
  intro s t ht
  obtain ⟨_, _, _, _, _, _, hflips, _⟩ := repair_state ht
  have hle := length_flipped_le s
  have hcount : t.flips.toNat = s.flipped.length := by
    have hR := R_le s.cfg
    rw [hflips, BitVec.toNat_ofNat, Nat.mod_eq_of_lt (by omega)]
  have hchanged : s.flipped =
      (allPairs s.cfg.R).filter fun p => matrixBit s.dataOf p.1 p.2 != matrixBit t.dataOf p.1 p.2 := by
    refine List.filter_congr fun p hp => ?_
    obtain ⟨hi, hj⟩ := mem_allPairs.1 hp
    rw [repair_matrixBit ht hi hj]
    cases matrixBit s.dataOf p.1 p.2 <;> simp
  exact ⟨by rw [hcount, ← hchanged], hcount ▸ hle⟩

theorem sameOutside_writeData {s : State} {D : List Word} (hD : D.length = s.cfg.R) :
    sameOutside s.mem (s.writeData D).mem (dataOff 0) (dataEnd s.cfg) := fun a ha => by
  by_contra hne
  have := readByte_writeData_ne hD hne
  omega

/-- Settles O51: the flips are written back as the words of DATA. -/
theorem repairWritesOnlyDataAndFlips : Obligations.RepairWritesOnlyDataAndFlips := by
  intro s t ht
  obtain ⟨_, _, rfl⟩ := execRepair_eq_next.1 ht
  rw [State.emitEvents_eq]
  exact ⟨sameOutside_writeData (by simp), rfl⟩

/-! ## One flipped bit, and a block without a located pair (42 R120, R122, R123) -/

/-- Settles O52: the flipped bit alone is located, and the restored block is consistent. -/
theorem repairCorrectsAnySingleFlip : Obligations.RepairCorrectsAnySingleFlip := by
  intro s r n hs hr hn
  obtain ⟨hD, _, hS, _⟩ := block_flipDataBit hs.1 hr hn
  obtain ⟨t, ht⟩ := exec_answers (i := .repair) hD fun _ => hS.2 hs.2.1
  obtain ⟨_, hDt, hSt, _⟩ := repair_state ht
  obtain ⟨hbytes, hflips, hfixed⟩ := repair_flipDataBit hs hr hn ht
  exact ⟨t, ht, hbytes, hflips, execCheck_valid ⟨hDt, hSt, hfixed⟩⟩

/-- Settles O54: no pair is located, so DATA is written back as it was. -/
theorem storedCorruptionOfOneFamilyFlipsNothing : Obligations.StoredCorruptionOfOneFamilyFlipsNothing := by
  intro s hD hS hfamily
  obtain ⟨t, ht⟩ := exec_answers (i := .repair) hD fun _ => hS
  obtain ⟨_, hDt, hSt, _, hstored, hfp, hflips, hmem⟩ := repair_state ht
  rw [flipped_eq_nil hfamily] at hfp hflips hmem
  refine ⟨t, ht, hflips, fun a => ?_, execCheck_eq_next.2 ⟨hDt, hSt, ?_⟩⟩
  · rw [hmem]; exact readByte_writeWords_dataOf hD (fun _ _ => rfl) a
  · rw [hstored, hfp]; rfl

/-- Settles O53: in a consistent block no family has a mismatch. -/
theorem repairLeavesAConsistentBlockAlone : Obligations.RepairLeavesAConsistentBlockAlone := by
  rintro s ⟨hD, hS, hs⟩
  obtain ⟨t, ht, hflips, hbytes, _⟩ := storedCorruptionOfOneFamilyFlipsNothing s hD hS (.inl (by rw [hs]))
  exact ⟨t, ht, hflips, hbytes⟩

/-! ## Faults (42 R113, 60 R132) -/

theorem execRepair_fault {s : State} {f : Fault} (h : s.readBlock = .error f) : exec .repair s = .fault f := by
  rw [exec, execRepair, h]; rfl

/-- Settles O55: REPAIR reads the block as CHECK does, DATA first. -/
theorem repairFaultsOnTheLowestUnwrittenWord : Obligations.RepairFaultsOnTheLowestUnwrittenWord := fun _ =>
  ⟨fun _ hr hw hu => execRepair_fault (readBlock_error_data (readData_error hr hw hu)),
    fun hD _ hk hw hu => execRepair_fault (readBlock_error_stored hD (readStored_error hk hw hu))⟩

/-- A command faults only where the read of its operands does. -/
theorem exec_fault_cases {i : Instr} {s : State} {f : Fault} (h : exec i s = .fault f) :
    (i = .compute ∧ s.readData = .error f) ∨ (i = .check ∧ s.readBlock = .error f) ∨
      (i = .repair ∧ s.readBlock = .error f) := by
  cases i with
  | compute =>
    rw [exec, execCompute] at h
    split at h <;> cases h
    exact .inl ⟨rfl, ‹_›⟩
  | check =>
    rw [exec, execCheck] at h
    split at h <;> cases h
    exact .inr (.inl ⟨rfl, ‹_›⟩)
  | repair =>
    rw [exec, execRepair] at h
    split at h <;> cases h
    exact .inr (.inr ⟨rfl, ‹_›⟩)

/-! ## Diagnostic events (42 R125, 60 R139) -/

theorem State.emitEvents_withEvents (s : State) (channel : EventChannel) (trace : List DiagEvent) (ps : List (Nat × Nat)) :
    ∃ trace', (s.withEvents channel trace).emitEvents ps = (s.emitEvents ps).withEvents channel trace' := by
  rw [State.emitEvents_eq, State.emitEvents_eq]
  exact ⟨_, rfl⟩

/-- Settles O56: a command reads neither the channel nor the trace, and only REPAIR's last step writes the trace. -/
theorem diagnosticEventsAffectNothing : Obligations.DiagnosticEventsAffectNothing := by
  refine fun i s channel trace => ⟨fun t ht => ?_, fun f hf => ?_⟩
  · obtain ⟨rfl, hD, rfl⟩ | ⟨rfl, hD, hS, rfl⟩ | ⟨rfl, hD, hS, rfl⟩ := exec_cases ht
    · exact ⟨trace, execCompute_eq_next.2 ⟨hD, rfl⟩⟩
    · exact ⟨trace, execCheck_eq_next.2 ⟨hD, hS, rfl⟩⟩
    · obtain ⟨trace', hemit⟩ :=
        ((s.writeData (applyFlips s.dataOf s.flipped)).setFlips s.flipped.length).emitEvents_withEvents channel trace s.flipped
      exact ⟨trace', execRepair_eq_next.2 ⟨hD, hS, hemit.symm⟩⟩
  · obtain ⟨rfl, hread⟩ | ⟨rfl, hread⟩ | ⟨rfl, hread⟩ := exec_fault_cases hf
    · exact execCompute_fault hread
    · exact execCheck_fault hread
    · exact execRepair_fault hread

end Sys2Proof.Machine
end

section
/-! SUPPORT. What a fault or a refusal leaves (60 R129, R131, R143): its mark, and a state that cannot end a run (60 R146). -/

namespace Sys2Proof.Machine

/-! ## The reason of a refusal (60 R131) -/

/-- Only the host's turn can be refused, so every refusal is the CMD write of a reserved word. -/
theorem step_refused {s : State} {r : Refusal} (h : step s = .refused r) : r = .reservedCommand := by
  cases turn : s.nextTurn with
  | host => exact hostTurn_refused ((step_host turn).symm.trans h)
  | engine => exact absurd ((step_engine turn).symm.trans h) (engineTurn_not_refused _ _)
  | reset | upset => simp [step, turn, runTurn] at h

/-! ## The marks -/

/-- Undoing the mark undoes the whole effect of a fault. -/
theorem State.markFault_restore (s : State) (f : Fault) : { s.markFault f with faultMark := s.faultMark } = s := rfl

theorem State.markRefusal_restore (s : State) (r : Refusal) :
    { s.markRefusal r with refusalMark := s.refusalMark } = s := rfl

theorem State.isSome_faultMark_markFault (s : State) (f : Fault) : (s.markFault f).faultMark.isSome := by simp

/-- There is one reason (60 R131), so a mark set before and a new one record the same. -/
theorem State.refusalMark_markRefusal_reservedCommand (s : State) :
    (s.markRefusal .reservedCommand).refusalMark = some .reservedCommand := by
  rw [State.markRefusal_refusalMark, reason_reservedCommand]
  cases s.refusalMark with
  | none => rfl
  | some reason => rfl

/-! ## Final states (60 R146) -/

theorem State.not_final_of_faultMark {s : State} (h : s.faultMark.isSome) : ¬ s.Final := by
  rintro ⟨_, _, hnone, _⟩
  simp [hnone] at h

theorem State.not_final_of_refusalMark {s : State} {reason : RefusalReason} (h : s.refusalMark = some reason) : ¬ s.Final := by
  rintro ⟨_, _, _, hnone⟩
  simp [hnone] at h

/-- Settles O14: what such a step leaves is the state before it with one mark set, and a marked state is not final. -/
theorem aFaultedOrRefusedStepHasNoOtherEffect : Obligations.AFaultedOrRefusedStepHasNoOtherEffect := by
  refine fun s => ⟨fun f h => ?_, fun r h => ?_⟩
  · have hmark := s.isSome_faultMark_markFault f
    rw [h, settle_fault]
    exact ⟨hmark, fun hnone => by simp [hnone], s.markFault_restore f, State.not_final_of_faultMark hmark⟩
  · obtain rfl := step_refused h
    have hmark := s.refusalMark_markRefusal_reservedCommand
    rw [h, settle_refused]
    exact ⟨rfl, hmark, s.markRefusal_restore _, State.not_final_of_refusalMark hmark⟩

end Sys2Proof.Machine
end

section
/-! SUPPORT. The reset step (70 R147 to R149) and the BUSY hazard (70 R152). -/

namespace Sys2Proof.Machine

/-! ## Reset (70 R147 to R149) -/

theorem step_reset {s : State} (h : s.nextTurn = .reset) : step s = .next s.dropTurn.applyReset := by
  simp [step, h, runTurn]

/-- After reset STATUS reads 0 (70 R148). -/
theorem memRead_status_applyReset (s : State) : memRead s.applyReset 0x0004 4 = .ok 0x00000000#32 := by
  rw [memRead_status, status_idle s.applyReset_busy, State.applyReset_valid]
  decide

/-- After reset no word of the storage has a value (10 R42). -/
theorem memRead_storage_applyReset {s : State} {off : Nat}
    (ho : isDataWord s.cfg off ∨ isStoredWord s.cfg off ∨ isFreshWord s.cfg off) :
    memRead s.applyReset off 4 = .error (.unwritten off) := by
  rw [memRead_storedWord s.applyReset_busy ho]
  exact storedWord_of_none rfl

/-- Settles O19: the state after the step is the reset of the state before it, with the turn taken. -/
theorem resetStepFromAnyState : Obligations.ResetStepFromAnyState := fun s h =>
  ⟨s.dropTurn.applyReset, step_reset h, rfl, rfl, rfl, rfl, rfl, rfl, rfl, memRead_status_applyReset s.dropTurn,
    fun _ ho => memRead_storage_applyReset (s := s.dropTurn) ho⟩

/-! ## The BUSY hazard (70 R152) -/

/-- Settles O23: bit 0 of STATUS is BUSY, and while it is 1 every other access of the map is a hazard. -/
theorem whileBusyOnlyStatusIsReadable : Obligations.WhileBusyOnlyStatusIsReadable := by
  intro s off v hb
  have hstatus : s.status.getLsbD 0 = true := (statusWord_bits s.validRead s.busy).1.trans hb
  exact ⟨⟨s.status, memRead_status s, hstatus⟩, memRead_busy hb, memWrite_busy v hb⟩

end Sys2Proof.Machine
end
